-- ==== Sys2Proof/Word.lean ====
section
/-! DEFINITION. The bit-vector types of the LNE (00_scope.md R10, R12): every value is unsigned, bit 0 is the least significant. -/

namespace Sys2Proof

/-- One bit (`BL`, RS, Enable, R/W, the mode flag `h`). -/
abbrev Bit := BitVec 1

/-- A nibble, "4-bit half of a byte" (R17). -/
abbrev Nibble := BitVec 4

/-- An expander byte, a command value or a data value (R10). -/
abbrev Byte := BitVec 8

/-- A command word (R70). -/
abbrev Word := BitVec 16

end Sys2Proof
end

