-- ==== Sys2Proof/Syntax.lean ====
section
/-! DEFINITION. The commands of the LNE: one constructor per row of spec/opcode_table.json (30_encoding.md R72). -/

namespace Sys2Proof

/-- A command with its operands, each field of exactly the width R71 and R73 give it. The suffix of NIB, PUT and WRITE spells
`rs` and `h` (R72): C is rs 0, h 0; D is rs 1, h 0; CH is rs 0, h 1. -/
inductive Instr where
  | nop
  | clrbuf
  | nibC (n : Nibble)
  | nibD (n : Nibble)
  | putC (v : Byte)
  | putD (v : Byte)
  | putCH (v : Byte)
  | flush
  | writeC (v : Byte)
  | writeD (v : Byte)
  | writeCH (v : Byte)
  | setl (on : Bit)
  | goto (line : BitVec 4) (col : Byte)
  | ldrow (idx : BitVec 3) (bm : Byte)
  | defchar (slot : BitVec 4)
  | init
  deriving DecidableEq, Repr

end Sys2Proof
end

