-- ==== Sys2Proof/WellFormed.lean ====
section
/-! DEFINITION. Well-formedness. A term of Instr has every field at its own width, so the check that can refuse stands one level up,
on the assembler's lines (30_encoding.md R80): "An assembler refuses an operand outside its field's range and refuses PUT.DH and
WRITE.DH". An Instr is well formed when the line that spells it is. -/

namespace Sys2Proof

/-- The mnemonics of R80, and the two it names only to refuse them. -/
inductive Mnemonic where
  | nop | clrbuf | nibC | nibD | putC | putD | putCH | putDH | flush | writeC | writeD | writeCH | writeDH
  | setl | goto | ldrow | defchar | init
  deriving DecidableEq, Repr

/-- One line of assembler: a mnemonic and its operands in the order R80 writes them. -/
structure AsmLine where
  mnemonic : Mnemonic
  operands : List Nat
  deriving DecidableEq, Repr

/-- For each operand of a mnemonic, the first number too large for its field (R80); none where the mnemonic itself is refused (R77). -/
def Mnemonic.bounds : Mnemonic → Option (List Nat)
  | .nop | .clrbuf | .flush | .init => some []
  | .nibC | .nibD => some [16]
  | .putC | .putD | .putCH | .writeC | .writeD | .writeCH => some [256]
  | .putDH | .writeDH => none
  | .setl => some [2]
  | .goto => some [16, 256]
  | .ldrow => some [8, 256]
  | .defchar => some [16]

/-- A line is well formed: its mnemonic is not refused, it has as many operands as the mnemonic takes, each in its field's range. -/
def AsmLine.wf (l : AsmLine) : Bool :=
  match l.mnemonic.bounds with
  | none => false
  | some bs => l.operands.length == bs.length && (l.operands.zip bs).all fun x => decide (x.1 < x.2)

/-- The line that spells an instruction (R72, R80). -/
def Instr.line : Instr → AsmLine
  | .nop => ⟨.nop, []⟩
  | .clrbuf => ⟨.clrbuf, []⟩
  | .nibC n => ⟨.nibC, [n.toNat]⟩
  | .nibD n => ⟨.nibD, [n.toNat]⟩
  | .putC v => ⟨.putC, [v.toNat]⟩
  | .putD v => ⟨.putD, [v.toNat]⟩
  | .putCH v => ⟨.putCH, [v.toNat]⟩
  | .flush => ⟨.flush, []⟩
  | .writeC v => ⟨.writeC, [v.toNat]⟩
  | .writeD v => ⟨.writeD, [v.toNat]⟩
  | .writeCH v => ⟨.writeCH, [v.toNat]⟩
  | .setl on => ⟨.setl, [on.toNat]⟩
  | .goto line col => ⟨.goto, [line.toNat, col.toNat]⟩
  | .ldrow idx bm => ⟨.ldrow, [idx.toNat, bm.toNat]⟩
  | .defchar slot => ⟨.defchar, [slot.toNat]⟩
  | .init => ⟨.init, []⟩

/-- An instruction is well formed when its line is. -/
def Instr.wf (i : Instr) : Bool := i.line.wf

end Sys2Proof
end

