-- ==== Sys2Proof/Decode.lean ====
section
/-! DEFINITION. Decoding and encoding of command words (30_encoding.md R70 to R79). The decoder is R74 read literally: the row of
the opcode table whose (w & mask) equals its match, and no instruction (an ILLEGAL word) where no row matches. -/

namespace Sys2Proof

/-! The operand fields of R73, taken straight from the word. -/

def Word.n (w : Word) : Nibble := w.extractLsb' 0 4
def Word.v (w : Word) : Byte := w.extractLsb' 0 8
def Word.on (w : Word) : Bit := w.extractLsb' 0 1
def Word.line (w : Word) : BitVec 4 := w.extractLsb' 8 4
def Word.col (w : Word) : Byte := w.extractLsb' 0 8
def Word.idx (w : Word) : BitVec 3 := w.extractLsb' 8 3
def Word.bm (w : Word) : Byte := w.extractLsb' 0 8
def Word.slot (w : Word) : BitVec 4 := w.extractLsb' 0 4

/-- One row of the opcode table. -/
structure OpcodeRow where
  mask : Word
  pattern : Word
  build : Word → Instr

/-- The sixteen rows of opcode_table.json (R72, R74). -/
def opcodeRows : List OpcodeRow :=
  [ ⟨0xFFFF, 0x0000, fun _ => .nop⟩,
    ⟨0xFFFF, 0x1000, fun _ => .clrbuf⟩,
    ⟨0xFFF0, 0x2000, fun w => .nibC (Word.n w)⟩,
    ⟨0xFFF0, 0x2100, fun w => .nibD (Word.n w)⟩,
    ⟨0xFF00, 0x3000, fun w => .putC (Word.v w)⟩,
    ⟨0xFF00, 0x3100, fun w => .putD (Word.v w)⟩,
    ⟨0xFF00, 0x3200, fun w => .putCH (Word.v w)⟩,
    ⟨0xFFFF, 0x4000, fun _ => .flush⟩ ] ++
  [ ⟨0xFF00, 0x5000, fun w => .writeC (Word.v w)⟩,
    ⟨0xFF00, 0x5100, fun w => .writeD (Word.v w)⟩,
    ⟨0xFF00, 0x5200, fun w => .writeCH (Word.v w)⟩,
    ⟨0xFFFE, 0x6000, fun w => .setl (Word.on w)⟩,
    ⟨0xF000, 0x7000, fun w => .goto (Word.line w) (Word.col w)⟩,
    ⟨0xF800, 0x8000, fun w => .ldrow (Word.idx w) (Word.bm w)⟩,
    ⟨0xFFF0, 0x9000, fun w => .defchar (Word.slot w)⟩,
    ⟨0xFFFF, 0xA000, fun _ => .init⟩ ]

/-- Whether a word is one of a row's. -/
def OpcodeRow.holds (r : OpcodeRow) (w : Word) : Bool := w &&& r.mask == r.pattern

/-- The decoder (R74): total; none is an ILLEGAL word (R75). -/
def decode (w : Word) : Option Instr :=
  (opcodeRows.find? (·.holds w)).map (·.build w)

/-- The encoder, from the formats of R71 and the opcodes of R72: opcode, then each field at its place, every reserved bit 0 (R76). -/
def encode : Instr → Word
  | .nop => 0x0000
  | .clrbuf => 0x1000
  | .nibC n => 0x2000 ||| n.setWidth 16
  | .nibD n => 0x2100 ||| n.setWidth 16
  | .putC v => 0x3000 ||| v.setWidth 16
  | .putD v => 0x3100 ||| v.setWidth 16
  | .putCH v => 0x3200 ||| v.setWidth 16
  | .flush => 0x4000
  | .writeC v => 0x5000 ||| v.setWidth 16
  | .writeD v => 0x5100 ||| v.setWidth 16
  | .writeCH v => 0x5200 ||| v.setWidth 16
  | .setl on => 0x6000 ||| on.setWidth 16
  | .goto line col => 0x7000 ||| (line.setWidth 16 <<< 8) ||| col.setWidth 16
  | .ldrow idx bm => 0x8000 ||| (idx.setWidth 16 <<< 8) ||| bm.setWidth 16
  | .defchar slot => 0x9000 ||| slot.setWidth 16
  | .init => 0xA000

/-- The decoder on a word numbered as the opcode table numbers it. A command is one 16-bit word (R70, R79), so an instruction of more
than 16 bits is none. -/
def decodeTableWord (nbits w : Nat) : Option Instr :=
  if nbits ≤ 16 then decode (BitVec.ofNat 16 (w % 2 ^ nbits)) else none

end Sys2Proof
end

