-- ==== Sys2Proof/Config.lean ====
section
/-! DEFINITION. The implementation parameters of 00_scope.md R9 with their defaults, the constraints on them (R11, R165), and the
free values: what the spec leaves open, as constants with no body. -/

namespace Sys2Proof.Config

/-- Free value (log 5): the clock frequency, less one hertz, of an implementation whose `CLK_HZ` is not given (R9: OPEN). -/
opaque openClkHzPred : Nat

/-- Free value (log 7): what `CTX` holds after a reset edge (R38: unspecified), by draw: 0 USER, 1 SLOW, 2 INIT. -/
opaque freeCtx : Nat → Fin 3

/-- Free value (log 7): what `STEP` holds after a reset edge (R38: unspecified), by draw. -/
opaque freeStep : Nat → Fin 8

/-- Free value (log 7): what `WCNT` holds after a reset edge (R38: unspecified), by draw. -/
opaque freeWcnt : Nat → Nat

/-- Free value (log 8): `bus_rd_byte` where R35 calls it unspecified, by draw and by `bus_rd_idx`. -/
opaque freeBusRdByte : Nat → Nat → Byte

/-- Free value (log 8): `bus_len` while `bus_req` = 0 (R35 gives it only while `bus_req` = 1), by draw. -/
opaque freeBusLen : Nat → Nat

/-- Free value (log 8): `rsp_status` while `rsp_valid` = 0 (R33 gives it only with the pulse), by draw. -/
opaque freeRspStatus : Nat → BitVec 3

/-- The parameter `CLK_HZ` (R9, D16): OPEN, so the default is the frequency of an unnamed implementation, a free value;
a configuration may name it (log 5). -/
inductive ClkHz where
  | unnamed
  | hz (n : Nat)
  deriving DecidableEq, Repr

/-- The frequency in hertz. -/
def ClkHz.freq : ClkHz → Nat
  | .unnamed => openClkHzPred + 1
  | .hz n => n

/-- Free value (log 13): `LINE_BASE[line]` where `LINES` is above the number of entries, which R11 rules out. -/
opaque freeLineBase : Nat → Byte

/-- Free values (log 12): what the last edge of a wait with `CTX` = USER does, by draw. No rule gives that wait a continuation; only a
state of before the first reset (R243) has one. -/
opaque freeWaitEnd : Nat → Fin 3

/-- The source's lower bounds of `T_INIT[0..6]` in microseconds (R9, R165). -/
def tInitMin : Vector Nat 7 := #v[5000, 1000, 1000, 2000, 2000, 2000, 2000]

/-- The parameters of R9, each with its default; times are whole microseconds (log 4, log 6). -/
structure Params where
  /-- `LINES`. -/
  lines : Nat := 4
  /-- `LINE_BASE`. -/
  lineBase : List Byte := [0x80, 0xC0, 0x94, 0xD4]
  /-- `COLS`. -/
  cols : Nat := 20
  /-- `CG_SLOTS`. -/
  cgSlots : Nat := 8
  /-- `CG_ROWS`. -/
  cgRows : Nat := 8
  /-- `T_SLOW`. -/
  tSlow : Nat := 2000
  /-- `T_INIT[0..7]`; the last defaults to `T_SLOW`. -/
  tInit : Vector Nat 8 := #v[5000, 1000, 1000, 2000, 2000, 2000, 2000, tSlow]
  /-- `CLK_HZ`. -/
  clkHz : ClkHz := .unnamed
  /-- `BUF_DEPTH`. -/
  bufDepth : Nat := 128
  /-- `CMD_RESET`. -/
  cmdReset : Byte := 0x30
  /-- `CMD_FUNC4`. -/
  cmdFunc4 : Byte := 0x20
  /-- `CMD_FUNC`. -/
  cmdFunc : Byte := 0x28
  /-- `CMD_DISPCTL`. -/
  cmdDispctl : Byte := 0x0C
  /-- `CMD_ENTRY`. -/
  cmdEntry : Byte := 0x06
  /-- `CMD_CLEAR`. -/
  cmdClear : Byte := 0x01
  /-- `SLOW_CMDS`. -/
  slowCmds : List Byte := [0x01, 0x02, 0x03]
  /-- `DEFCHAR_ENTRY_CMD`. R9 writes its default as "`CMD_ENTRY` (0x06)"; that a configuration which changes only `CMD_ENTRY` changes it
  too is a DESIGN CHOICE (log 23). -/
  defcharEntryCmd : Byte := cmdEntry
  /-- `DEFCHAR_RESTORE_CMD`. -/
  defcharRestoreCmd : Byte := 0x80
  /-- `DEFCHAR_ROW_MASK`. -/
  defcharRowMask : Byte := 0xFF
  /-- `SETLIGHT_EMITS`. -/
  setlightEmits : Bool := true
  /-- `BL_RESET`. -/
  blReset : Bit := 0
  deriving DecidableEq, Repr

/-- The reference configuration (R9), `CLK_HZ` open. -/
def reference : Params := {}

/-- `LEN_W` = ceil(log2(BUF_DEPTH + 1)): the bits that hold every length 0 to `BUF_DEPTH` (R10). -/
def Params.lenW (p : Params) : Nat := Nat.log2 p.bufDepth + 1

/-- The constraints of R11 (geometry, depth, clock), of R183 (slots 0 to 7, eight rows), of R165 (the initialization delays only grow,
the last from `T_SLOW`) and of R163 (`N` ≥ 1, so `T_SLOW` is not zero) (log 15). -/
abbrev Params.Legal (p : Params) : Prop :=
  44 ≤ p.bufDepth ∧ p.lines = 4 ∧ p.lineBase = [0x80, 0xC0, 0x94, 0xD4] ∧ p.cols = 20 ∧ p.cgSlots = 8 ∧ p.cgRows = 8 ∧
  p.clkHz ≠ .hz 0 ∧ (∀ k : Fin 7, tInitMin[k] ≤ p.tInit[k.castSucc]) ∧ p.tSlow ≤ p.tInit[7] ∧ 0 < p.tSlow

end Sys2Proof.Config
end

