-- ==== Sys2Proof/Machine/State.lean ====
section
/-! DEFINITION. The state of the LNE (10_state.md R20 to R25, R33, R38), the values of its pins at an edge (R30 to R36), and the
reasons a step can stop. -/

namespace Sys2Proof.Machine

open Sys2Proof

/-- The control state of the command engine (R20, R25). -/
inductive Fsm where
  | idle | xfer | wait
  deriving DecidableEq, Repr

/-- What follows the outstanding transaction (R20, R25). -/
inductive Ctx where
  | user | slow | init
  deriving DecidableEq, Repr

/-- The status names of 60_exceptions.md R211; their codes are `Status.code` (Machine/Flags.lean). -/
inductive Status where
  | ok | xferFail | badPos | badSlot | overflow | illegal
  deriving DecidableEq, Repr

/-- The LNE's input pins as sampled at one rising edge of `clk`, and in the cycle before it (R30, R31, R35, R36).
The defaults are a quiet edge: no reset, no command, no answer (log 2). -/
structure Pins where
  /-- `rst`. -/
  rst : Bool := false
  /-- `cmd_valid`. -/
  cmdValid : Bool := false
  /-- `cmd_word`. -/
  cmdWord : Word := 0
  /-- `bus_done`. -/
  busDone : Bool := false
  /-- `bus_count`: LEN_W + 1 bits, so the LNE samples `State.busCount` (Machine/Ops.lean). -/
  busCount : Nat := 0
  /-- `bus_rd_idx`: LEN_W bits, so the LNE sees `State.busRdIdx` (Machine/Ops.lean). -/
  busRdIdx : Nat := 0
  /-- `dec_a`. -/
  decA : Byte := 0
  /-- `dec_b`. -/
  decB : Byte := 0
  deriving DecidableEq, Repr

/-- A quiet edge: no reset, no command, no answer. -/
def quietPins : Pins := {}

/-- A completed transaction as R228 observes it: the bytes offered and the count the transport reported. -/
structure Transaction where
  bytes : List Byte
  count : Nat
  deriving DecidableEq, Repr

/-- The state. The fields `bl` to `wcnt` are R20's, `LEN` being the length of `buf` (log 9); `rspValid` is R33's pulse (log 10);
`cfg` is R9's parameters (log 4); the last four are the model's own: the pins of the coming edges (log 1, log 2), the counter that
picks free values (log 8), and R228's record of transactions and responses (log 11). -/
structure State where
  /-- The parameters (R9); no step changes them. -/
  cfg : Config.Params
  /-- `BL`: 1 is backlight on (R21). -/
  bl : Bit
  /-- `BUF`: element 0 is the oldest and is sent first (R22). -/
  buf : List Byte
  /-- `ROW[0..7]` (R23). -/
  row : Vector Byte 8
  /-- `STATUS`: the code of the last completed command (R24). -/
  status : BitVec 3
  /-- `FSM` (R25). -/
  fsm : Fsm
  /-- `CTX` (R25). -/
  ctx : Ctx
  /-- `STEP`: the current INIT step (R25, R27). -/
  stepReg : Fin 8
  /-- `WCNT`: remaining cycles of a wait (R25, R163). -/
  wcnt : Nat
  /-- `rsp_valid` (R33). -/
  rspValid : Bool
  /-- The pins at the coming edges, the next edge first. -/
  inputs : List Pins
  /-- The edges taken so far: picks a fresh free value each edge. -/
  draws : Nat
  /-- The completed transactions, the oldest first. -/
  transactions : List Transaction
  /-- The status codes answered, the oldest first. -/
  responses : List (BitVec 3)
  deriving DecidableEq, Repr

/-- Why a step of the model can stop: nothing can stop it. Every failure is a status code (R210), a transport that never answers
leaves the LNE in XFER edge after edge (R227), and a state of before the first reset runs on (R243, log 12). -/
inductive Fault where
  deriving DecidableEq, Repr

/-- Why the model can refuse an instruction. -/
inductive Refusal where
  /-- An instruction that has no meaning yet, by its mnemonic in spec/opcode_table.json; raised by an arm of exec only. Safe. -/
  | notModelled (mnemonic : String)
  deriving DecidableEq, Repr

/-- `LEN` (R20, R22): always `|BUF|`. -/
def State.len (s : State) : Nat := s.buf.length

/-- The machine right after reset (R38, R240) in the reference configuration. `CTX`, `STEP` and `WCNT` are unspecified there (R38):
USER, 0 and 0 are the model's choice (log 7); nothing is listed on the pins (log 2). -/
def State.reset : State where
  cfg := Config.reference
  bl := Config.reference.blReset
  buf := []
  row := #v[0x00, 0x00, 0x00, 0x00, 0x00, 0x00, 0x00, 0x00]
  status := 0
  fsm := .idle
  ctx := .user
  stepReg := 0
  wcnt := 0
  rspValid := false
  inputs := []
  draws := 0
  transactions := []
  responses := []

end Sys2Proof.Machine
end

