-- ==== Sys2Proof/Machine/Flags.lean ====
section
/-! DEFINITION. The outcome codes. The LNE has no condition flags (10_state.md R28); its one outcome state is STATUS, whose codes are
60_exceptions.md R211's, and whose causes are the checks of R52, R56, R182 and R195. -/

namespace Sys2Proof.Machine

open Sys2Proof

/-- The 3-bit code of a status (R211). -/
def Status.code : Status → BitVec 3
  | .ok => 0
  | .xferFail => 1
  | .badPos => 2
  | .badSlot => 3
  | .overflow => 4
  | .illegal => 5

/-- The check of R52: the sequence would pass `BUF_DEPTH`. Lengths are compared as exact numbers, nothing wraps (R110). -/
def overflows (s : State) (bytes : List Byte) : Bool := decide (s.cfg.bufDepth < s.len + bytes.length)

/-- The check of R56: the transport reported fewer bytes than `LEN`. A count above `LEN` is no failure. -/
def shortTransfer (s : State) (count : Nat) : Bool := decide (count < s.len)

/-- The range check of R196, each coordinate by itself. -/
def badPosition (p : Config.Params) (line : BitVec 4) (col : Byte) : Bool :=
  decide (p.lines ≤ line.toNat) || decide (p.cols ≤ col.toNat)

/-- The range check of R182, which writes the bound as 8. That it is `CG_SLOTS` (R9) where that is not 8 is a DESIGN CHOICE (log 13). -/
def badSlot (p : Config.Params) (slot : BitVec 4) : Bool := decide (p.cgSlots ≤ slot.toNat)

end Sys2Proof.Machine
end

