-- ==== Sys2Proof/Machine/Operands.lean ====
section
/-! DEFINITION. The expander-byte multiplexer and its inverses (40_expander_byte.md R100 to R106): how an operand becomes expander
bytes. All of it is combinational and reads no state; `BL` is an argument, taken when the byte is composed (R101). -/

namespace Sys2Proof.Machine

/-- Bits 7-4 of a value (R104, R110). -/
def highNibble (v : Byte) : Nibble := v.extractLsb' 4 4

/-- Bits 3-0 of a value (R104, R110). -/
def lowNibble (v : Byte) : Nibble := v.extractLsb' 0 4

/-- The expander byte (R100): the nibble on bits 7-4, Backlight on bit 3, Enable on bit 2, R/W = 0 on bit 1, RS on bit 0. -/
def ebyte (nib : Nibble) (en bl rs : Bit) : Byte :=
  (nib.setWidth 8 <<< 4) ||| (bl.setWidth 8 <<< 3) ||| (en.setWidth 8 <<< 2) ||| ((0#1).setWidth 8 <<< 1) ||| rs.setWidth 8

/-- The nibble pair (R103): the setup byte, Enable high, then the latch byte, Enable low. -/
def nibblePair (bl rs : Bit) (n : Nibble) : List Byte :=
  [ebyte n 1 bl rs, ebyte n 0 bl rs]

/-- The byte encoding (R104): high nibble then low nibble, or the high nibble alone when `h` = 1. -/
def encodeByte (bl rs : Bit) (v : Byte) (h : Bit) : List Byte :=
  if h = 0 then nibblePair bl rs (highNibble v) ++ nibblePair bl rs (lowNibble v)
  else nibblePair bl rs (highNibble v)

/-- The fields of one expander byte (R105). -/
structure ByteFields where
  rs : Bit
  rw : Bit
  en : Bit
  bl : Bit
  nib : Nibble
  deriving DecidableEq, Repr

/-- Field decode of one expander byte (R105). -/
def decodeFields (b : Byte) : ByteFields :=
  ⟨b.extractLsb' 0 1, b.extractLsb' 1 1, b.extractLsb' 2 1, b.extractLsb' 3 1, highNibble b⟩

/-- Pair decode of two latched bytes, high nibble first (R106); bits 3-0 of both are ignored. -/
def decodePair (a b : Byte) : Byte :=
  ((highNibble a).setWidth 8 <<< 4) ||| (highNibble b).setWidth 8

end Sys2Proof.Machine
end

