-- ==== Sys2Proof/Machine/Ops.lean ====
section
/-! DEFINITION. The named operations over the state: the pseudocode primitives of 00_scope.md R15 (Append, Transact, Wait, raise,
complete), the completion of a transaction (20_memory.md R56), the reset action (70_reset_and_hazards.md R240), and the start of an
edge. A failure takes no trap (60_exceptions.md R219): `raise` is the one shared way a command ends, and nothing returns from it (R220). -/

namespace Sys2Proof.Machine

open Sys2Proof

abbrev Outcome := Host.Outcome State Fault Refusal

/-- The pins at the coming edge; a quiet edge once the list is used up (log 2). -/
def State.pins (s : State) : Pins :=
  match s.inputs with
  | [] => quietPins
  | p :: _ => p

/-- `bus_count` as its port of LEN_W + 1 bits carries it (R35). -/
def State.busCount (s : State) : Nat := s.pins.busCount % 2 ^ (s.cfg.lenW + 1)

/-- `bus_rd_idx` as its port of LEN_W bits carries it (R35). -/
def State.busRdIdx (s : State) : Nat := s.pins.busRdIdx % 2 ^ s.cfg.lenW

/-- What every edge does first: the pins of this edge are used up, the response pulse of the cycle before ends (R33), and the
counter of free values advances. -/
def State.beginEdge (s : State) : State :=
  { s with inputs := s.inputs.tail, rspValid := false, draws := s.draws + 1 }

/-- `CTX` by the number a free value draws (log 7). -/
def ctxOfDraw (k : Fin 3) : Ctx :=
  if k = 0 then .user else if k = 1 then .slow else .init

/-- The reset action (R240): no response, no transaction. `CTX`, `STEP` and `WCNT` become meaningless: free values (log 7). -/
def State.resetAction (s : State) : State :=
  { s with
    bl := s.cfg.blReset
    buf := []
    row := #v[0x00, 0x00, 0x00, 0x00, 0x00, 0x00, 0x00, 0x00]
    status := Status.code .ok
    fsm := .idle
    ctx := ctxOfDraw (Config.freeCtx s.draws)
    stepReg := Config.freeStep s.draws
    wcnt := Config.freeWcnt s.draws
    rspValid := false }

/-- The end of a command with a status (R210, R15 `raise` and `complete`): STATUS is written, the response pulses, FSM = IDLE, and
nothing else changes: nothing is rolled back (R214) and no info is stored (R213). -/
def State.finish (s : State) (st : Status) : State :=
  { s with status := st.code, fsm := .idle, rspValid := true, responses := s.responses ++ [st.code] }

/-- `complete OK` (R15). -/
def State.completeOk (s : State) : State := s.finish .ok

/-- `raise <Status>` (R15), the LNE's only exception. -/
def State.raise (s : State) (st : Status) : State := s.finish st

/-- `BUF <- []; LEN <- 0`. -/
def State.clearBuf (s : State) : State := { s with buf := [] }

/-- `BUF <- BUF ++ s; LEN <- LEN + |s|`. -/
def State.pushBytes (s : State) (bytes : List Byte) : State := { s with buf := s.buf ++ bytes }

/-- `BL <- on`. -/
def State.setBl (s : State) (on : Bit) : State := { s with bl := on }

/-- `ROW[idx] <- bm`. -/
def State.setRow (s : State) (idx : BitVec 3) (bm : Byte) : State :=
  { s with row := s.row.set idx.toNat bm idx.isLt }

/-- `STEP <- k`. -/
def State.setStep (s : State) (k : Fin 8) : State := { s with stepReg := k }

/-- `CTX <- c`, then `Transact(BUF)` up to the transport's answer (R55): FSM <- XFER. -/
def State.transact (s : State) (c : Ctx) : State := { s with ctx := c, fsm := .xfer }

/-- The transport's answer goes on R228's record. -/
def State.recordTransaction (s : State) (count : Nat) : State :=
  { s with transactions := s.transactions ++ [⟨s.buf, count⟩] }

/-- `Append(s)` (R52), all or nothing. An error is the state as it stands when `Overflow` is raised. -/
def append (bytes : List Byte) (s : State) : Except State State :=
  if overflows s bytes then .error s else .ok (s.pushBytes bytes)

/-- Several `Append`s in order; the first that raises ends them, and what was appended before stays (R15). -/
def appendAll : List (List Byte) → State → Except State State
  | [], s => .ok s
  | q :: qs, s =>
    match append q s with
    | .error s' => .error s'
    | .ok s' => appendAll qs s'

/-- An appending command that sends nothing (R131, R133). -/
def appendCommand (bytes : List Byte) (s : State) : Outcome :=
  match append bytes s with
  | .error s' => .next (s'.raise .overflow)
  | .ok s' => .next s'.completeOk

/-- A command that clears the buffer, composes its sequences, and sends them as one transaction (R57). -/
def sendCommand (seqs : List (List Byte)) (c : Ctx) (s : State) : Outcome :=
  match appendAll seqs s.clearBuf with
  | .error s' => .next (s'.raise .overflow)
  | .ok s' => .next (s'.transact c)

/-- `N` = ceil(T x CLK_HZ) of R163, T in microseconds: the whole part, and one more where something is left. -/
def waitCycles (p : Config.Params) (t : Nat) : Nat :=
  t * p.clkHz.freq / 1000000 + (if t * p.clkHz.freq % 1000000 = 0 then 0 else 1)

/-- `Wait(T)` (R163) at its entering edge. -/
def State.startWait (s : State) (t : Nat) : State :=
  { s with fsm := .wait, wcnt := waitCycles s.cfg t }

/-- `WCNT <- n`. -/
def State.setWcnt (s : State) (n : Nat) : State := { s with wcnt := n }

/-- `WCNT <- WCNT - 1` (R163). -/
def State.tickWait (s : State) : State := { s with wcnt := s.wcnt - 1 }

/-- `T_INIT[k]` (R161). -/
def tInit (p : Config.Params) (k : Fin 8) : Nat := p.tInit[k]

/-- The continuation of a transaction answered with `count` (R56). -/
def completeTransaction (count : Nat) (s : State) : Outcome :=
  let r := s.recordTransaction count
  if shortTransfer s count then .next (r.raise .xferFail)
  else
    match s.ctx with
    | .user => .next r.completeOk
    | .slow => .next (r.startWait s.cfg.tSlow)
    | .init => .next (r.startWait (tInit s.cfg s.stepReg))

end Sys2Proof.Machine
end

