-- ==== Sys2Proof/Machine/Backlight.lean ====
section
/-! DEFINITION. The backlight command (41_backlight.md): SETL. -/

namespace Sys2Proof.Machine

open Sys2Proof

/-- SETL (R120 to R123): BL first, kept whatever the transaction's outcome; the byte carries the new BL (R121). -/
def execSetl (on : Bit) (s : State) : Outcome :=
  if s.cfg.setlightEmits then sendCommand [[ebyte 0 0 on 0]] .user (s.setBl on)
  else .next (s.setBl on).completeOk

end Sys2Proof.Machine
end

