-- ==== Sys2Proof/Machine/Cgram.lean ====
section
/-! DEFINITION. The character-definition commands (44_cgram.md): LDROW, DEFCHAR. -/

namespace Sys2Proof.Machine

open Sys2Proof

/-- LDROW (R180). -/
def execLdrow (idx : BitVec 3) (bm : Byte) (s : State) : Outcome := .next (s.setRow idx bm).completeOk

/-- The CGRAM address command `0x40 | (slot << 3)` (R184). -/
def cgramCommand (slot : BitVec 4) : Byte := 0x40 ||| (slot.setWidth 8 <<< 3)

/-- The eleven sequences of a DEFCHAR in order (R182, R183): framing, CGRAM address, rows 0 to CG_ROWS - 1 as data,
restoration. There are eight row registers (R20; log 13). -/
def defcharSeqs (s : State) (slot : BitVec 4) : List (List Byte) :=
  [encodeByte s.bl 0 s.cfg.defcharEntryCmd 0, encodeByte s.bl 0 (cgramCommand slot) 0] ++
  (s.row.toList.take s.cfg.cgRows).map (fun r => encodeByte s.bl 1 (r &&& s.cfg.defcharRowMask) 0) ++
  [encodeByte s.bl 0 s.cfg.defcharRestoreCmd 0]

/-- DEFCHAR (R182): a bad slot is refused before anything else changes. -/
def execDefchar (slot : BitVec 4) (s : State) : Outcome :=
  if badSlot s.cfg slot then .next (s.raise .badSlot)
  else sendCommand (defcharSeqs s slot) .user s

end Sys2Proof.Machine
end

