-- ==== Sys2Proof/Machine/Cursor.lean ====
section
/-! DEFINITION. The cursor-addressing command (45_cursor.md): GOTO. -/

namespace Sys2Proof.Machine

open Sys2Proof

/-- `LINE_BASE[line]` (R197); read only after the range check. A free value where the table has no entry (log 13). -/
def lineBase (p : Config.Params) (line : BitVec 4) : Byte := p.lineBase.getD line.toNat (Config.freeLineBase line.toNat)

/-- GOTO (R195, R196): a bad position is refused before anything else changes. -/
def execGoto (line : BitVec 4) (col : Byte) (s : State) : Outcome :=
  if badPosition s.cfg line col then .next (s.raise .badPos)
  else sendCommand [encodeByte s.bl 0 (lineBase s.cfg line + col) 0] .user s

end Sys2Proof.Machine
end

