-- ==== Sys2Proof/Machine/Encoder.lean ====
section
/-! DEFINITION. The nibble and byte encoder commands (42_encoder.md): CLRBUF, NIB, PUT, FLUSH, WRITE. -/

namespace Sys2Proof.Machine

open Sys2Proof

/-- CLRBUF (R130). -/
def execClrbuf (s : State) : Outcome := .next s.clearBuf.completeOk

/-- NIB(rs, n) (R131). -/
def nib (rs : Bit) (n : Nibble) (s : State) : Outcome := appendCommand (nibblePair s.bl rs n) s

/-- NIB.C (R131, R72: rs 0). -/
def execNibC (n : Nibble) (s : State) : Outcome := nib 0 n s

/-- NIB.D (R131, R72: rs 1). -/
def execNibD (n : Nibble) (s : State) : Outcome := nib 1 n s

/-- PUT(rs, h, v) (R133). -/
def put (rs h : Bit) (v : Byte) (s : State) : Outcome := appendCommand (encodeByte s.bl rs v h) s

/-- PUT.C (R133, R72: rs 0, h 0). -/
def execPutC (v : Byte) (s : State) : Outcome := put 0 0 v s

/-- PUT.D (R133, R72: rs 1, h 0). -/
def execPutD (v : Byte) (s : State) : Outcome := put 1 0 v s

/-- PUT.CH (R133, R72: rs 0, h 1). -/
def execPutCH (v : Byte) (s : State) : Outcome := put 0 1 v s

/-- FLUSH (R140, R59): an empty buffer issues no transaction. -/
def execFlush (s : State) : Outcome :=
  if s.len = 0 then .next s.completeOk else .next (s.transact .user)

/-- The context of a WRITE (R145): SLOW for a full-mode command in `SLOW_CMDS`. -/
def writeCtx (p : Config.Params) (rs h : Bit) (v : Byte) : Ctx :=
  if rs = 0 ∧ h = 0 ∧ v ∈ p.slowCmds then .slow else .user

/-- WRITE(rs, h, v) (R145). -/
def write (rs h : Bit) (v : Byte) (s : State) : Outcome :=
  sendCommand [encodeByte s.bl rs v h] (writeCtx s.cfg rs h v) s

/-- WRITE.C (R145, R72: rs 0, h 0). -/
def execWriteC (v : Byte) (s : State) : Outcome := write 0 0 v s

/-- WRITE.D (R145, R72: rs 1, h 0). -/
def execWriteD (v : Byte) (s : State) : Outcome := write 1 0 v s

/-- WRITE.CH (R145, R72: rs 0, h 1). -/
def execWriteCH (v : Byte) (s : State) : Outcome := write 0 1 v s

end Sys2Proof.Machine
end

