-- ==== Sys2Proof/Machine/InitFsm.lean ====
section
/-! DEFINITION. The initialization state machine, the end of a wait, and NOP (43_init_fsm.md). -/

namespace Sys2Proof.Machine

open Sys2Proof

/-- NOP (R166). -/
def execNop (s : State) : Outcome := .next s.completeOk

/-- `INIT_CMD[k]` (R161). -/
def initCmd (p : Config.Params) (k : Fin 8) : Byte :=
  (#v[p.cmdReset, p.cmdReset, p.cmdReset, p.cmdFunc4, p.cmdFunc, p.cmdDispctl, p.cmdEntry, p.cmdClear] : Vector Byte 8)[k]

/-- `INIT_H[k]` (R161): steps 0 to 3 send the high nibble only. -/
def initH (k : Fin 8) : Bit := (#v[1, 1, 1, 1, 0, 0, 0, 0] : Vector Bit 8)[k]

/-- The bytes of INIT step k (R161). -/
def initBytes (p : Config.Params) (bl : Bit) (k : Fin 8) : List Byte := encodeByte bl 0 (initCmd p k) (initH k)

/-- INIT_STEP (R160): the current step's buffer is composed and sent. -/
def initStep (s : State) : Outcome := sendCommand [initBytes s.cfg s.bl s.stepReg] .init s

/-- INIT (R160): always starts at step 0 (R246). -/
def execInit (s : State) : Outcome := initStep (s.setStep 0)

/-- The last edge of a wait with CTX = USER: no rule begins such a wait (R56), so no rule says how it ends, but the LNE may power up
in one and runs on (R243). By a free value it waits on, ends its command, or goes on as an INIT does (log 12). -/
def openWaitEnd (s : State) : Outcome :=
  match ctxOfDraw (Config.freeWaitEnd s.draws) with
  | .user => .next (s.setWcnt (Config.freeWcnt s.draws))
  | .slow => .next s.completeOk
  | .init => initStep (s.setStep (Config.freeStep s.draws))

/-- The continuation at the end of a wait (R150 for SLOW, R162 for INIT). -/
def waitContinuation (s : State) : Outcome :=
  match s.ctx with
  | .user => openWaitEnd s
  | .slow => .next s.completeOk
  | .init => if s.stepReg.val < 7 then initStep (s.setStep (s.stepReg + 1)) else .next s.completeOk

/-- An edge in WAIT (R163). -/
def waitEdge (s : State) : Outcome :=
  if 1 < s.wcnt then .next s.tickWait else waitContinuation s

end Sys2Proof.Machine
end

