-- ==== Sys2Proof/Machine/Dispatch.lean ====
section
/-! DEFINITION. One arm per command (30_encoding.md R72). -/

namespace Sys2Proof.Machine

open Sys2Proof

def exec (i : Instr) (s : State) : Host.Outcome State Fault Refusal :=
  match i with
  | .nop => Sys2Proof.Machine.execNop s
  | .clrbuf => Sys2Proof.Machine.execClrbuf s
  | .nibC n => Sys2Proof.Machine.execNibC n s
  | .nibD n => Sys2Proof.Machine.execNibD n s
  | .putC v => Sys2Proof.Machine.execPutC v s
  | .putD v => Sys2Proof.Machine.execPutD v s
  | .putCH v => Sys2Proof.Machine.execPutCH v s
  | .flush => Sys2Proof.Machine.execFlush s
  | .writeC v => Sys2Proof.Machine.execWriteC v s
  | .writeD v => Sys2Proof.Machine.execWriteD v s
  | .writeCH v => Sys2Proof.Machine.execWriteCH v s
  | .setl on => Sys2Proof.Machine.execSetl on s
  | .goto line col => Sys2Proof.Machine.execGoto line col s
  | .ldrow idx bm => Sys2Proof.Machine.execLdrow idx bm s
  | .defchar slot => Sys2Proof.Machine.execDefchar slot s
  | .init => Sys2Proof.Machine.execInit s

end Sys2Proof.Machine
end

