-- ==== Sys2Proof/Machine/Edge.lean ====
section
/-! DEFINITION. What one rising edge of `clk` does (10_state.md R30 to R32, R37): a reset edge before all else (R216), a command only
in IDLE, a transport answer only in XFER (R217), a wait's cycle in WAIT. -/

namespace Sys2Proof.Machine

open Sys2Proof

/-- A command word accepted (R32): the instruction it decodes to, or ILLEGAL with nothing changed but STATUS (R75). -/
def acceptWord (w : Word) (s : State) : Outcome :=
  match decode w with
  | some i => exec i s
  | none => .next (s.raise .illegal)

/-- One edge. -/
def clockEdge (s : State) : Outcome :=
  if s.pins.rst then .next s.beginEdge.resetAction
  else
    match s.fsm with
    | .idle => if s.pins.cmdValid then acceptWord s.pins.cmdWord s.beginEdge else .next s.beginEdge
    | .xfer => if s.pins.busDone then completeTransaction s.busCount s.beginEdge else .next s.beginEdge
    | .wait => waitEdge s.beginEdge

/-- The pins of an edge that presents a command word and nothing else. -/
def commandPins (w : Word) : Pins := { cmdValid := true, cmdWord := w }

end Sys2Proof.Machine
end

