-- ==== Sys2Proof/Machine/Step.lean ====
section
/-! DEFINITION. One step is one rising edge of `clk` (log 1). -/

namespace Sys2Proof.Machine

open Sys2Proof

def step (s : State) : Host.Outcome State Fault Refusal := clockEdge s

/-- The LNE fetches nothing (10_state.md R27): a program is the words the host presents (log 3). So the word is put on the command
port at the very next edge, before the pins already listed, and the engine is IDLE, the one state in which a command is accepted
(R31, R32). A command is 16 bits: bits of `w` from `nbits` up are zero. -/
def State.withFetchWord (s : State) (nbits w : Nat) : State :=
  { s with fsm := .idle, inputs := commandPins (BitVec.ofNat 16 (w % 2 ^ nbits)) :: s.inputs }

end Sys2Proof.Machine
end

