-- ==== Sys2Proof/Machine/Assembler.lean ====
section
/-! DEFINITION. The assembler of 30_encoding.md R80 and the pseudo-instructions of R81: source text to commands and words. It is a
tool of the host, no part of the machine's step. -/

namespace Sys2Proof.Machine

open Sys2Proof

/-- The instruction a well-formed line stands for; none where an assembler refuses it (R80). -/
def assemble (l : AsmLine) : Option Instr :=
  if l.wf then
    match l.mnemonic, l.operands with
    | .nop, [] => some .nop
    | .clrbuf, [] => some .clrbuf
    | .nibC, [n] => some (.nibC (BitVec.ofNat 4 n))
    | .nibD, [n] => some (.nibD (BitVec.ofNat 4 n))
    | .putC, [v] => some (.putC (BitVec.ofNat 8 v))
    | .putD, [v] => some (.putD (BitVec.ofNat 8 v))
    | .putCH, [v] => some (.putCH (BitVec.ofNat 8 v))
    | .flush, [] => some .flush
    | .writeC, [v] => some (.writeC (BitVec.ofNat 8 v))
    | .writeD, [v] => some (.writeD (BitVec.ofNat 8 v))
    | .writeCH, [v] => some (.writeCH (BitVec.ofNat 8 v))
    | .setl, [on] => some (.setl (BitVec.ofNat 1 on))
    | .goto, [line, col] => some (.goto (BitVec.ofNat 4 line) (BitVec.ofNat 8 col))
    | .ldrow, [idx, bm] => some (.ldrow (BitVec.ofNat 3 idx) (BitVec.ofNat 8 bm))
    | .defchar, [slot] => some (.defchar (BitVec.ofNat 4 slot))
    | .init, [] => some .init
    | _, _ => none
  else none

/-- The pseudo-instructions of R81. -/
inductive Pseudo where
  | lightOn
  | lightOff
  | char (c : Nat)
  | cmd (c : Nat)
  | cls
  | home
  | digit (d : Nat)
  | putdigit (d : Nat)
  | putspace
  | string (cs : List Nat)
  | defglyph (slot : Nat) (rows : List Nat)
  deriving DecidableEq, Repr

/-- The operand ranges of R81: a digit is 0 to 9, a string has at most BUF_DEPTH/4 characters, a glyph has eight rows; every other
operand is in the range of the command it expands to (R80). -/
def Pseudo.wf (p : Config.Params) : Pseudo → Bool
  | .lightOn | .lightOff | .cls | .home | .putspace => true
  | .char c | .cmd c => decide (c < 256)
  | .digit d | .putdigit d => decide (d ≤ 9)
  | .string cs => decide (cs.length ≤ p.bufDepth / 4) && cs.all fun c => decide (c < 256)
  | .defglyph slot rows => decide (slot < 16) && rows.length == 8 && rows.all fun r => decide (r < 256)

/-- LDROW 0, r0 ... for the rows of a DEFGLYPH from row k on. -/
def ldrows : Nat → List Nat → List Instr
  | _, [] => []
  | k, r :: rs => .ldrow (BitVec.ofNat 3 k) (BitVec.ofNat 8 r) :: ldrows (k + 1) rs

/-- The expansions of R81. -/
def Pseudo.expand : Pseudo → List Instr
  | .lightOn => [.setl 1]
  | .lightOff => [.setl 0]
  | .char c => [.writeD (BitVec.ofNat 8 c)]
  | .cmd c => [.writeC (BitVec.ofNat 8 c)]
  | .cls => [.writeC 0x01]
  | .home => [.writeC 0x02]
  | .digit d => [.writeD (0x30 + BitVec.ofNat 8 d)]
  | .putdigit d => [.putD (0x30 + BitVec.ofNat 8 d)]
  | .putspace => [.putD 0x20]
  | .string cs => [.clrbuf] ++ cs.map (fun c => .putD (BitVec.ofNat 8 c)) ++ [.flush]
  | .defglyph slot rows => ldrows 0 rows ++ [.defchar (BitVec.ofNat 4 slot)]

/-- One line of source. -/
inductive Source where
  | blank
  | command (l : AsmLine)
  | pseudo (p : Pseudo)
  deriving DecidableEq, Repr

/-! Reading one line of text (R80). Blanks between tokens are free, mnemonics are capitals as R80 writes them (log 19). -/

def isBlank (c : Char) : Bool := c == ' ' || c == '\t'

def skipBlanks : List Char → List Char
  | [] => []
  | c :: cs => if isBlank c then skipBlanks cs else c :: cs

/-- Nothing more on the line but blanks and a comment (`;` starts one). -/
def atEnd (cs : List Char) : Bool :=
  match skipBlanks cs with
  | [] => true
  | c :: _ => c == ';'

/-- The value of a digit in base 10 or 16. -/
def digitValue (base : Nat) (c : Char) : Option Nat :=
  let k := c.toNat
  let d := if 48 ≤ k ∧ k ≤ 57 then some (k - 48)
    else if 65 ≤ k ∧ k ≤ 70 then some (k - 55)
    else if 97 ≤ k ∧ k ≤ 102 then some (k - 87)
    else none
  d.filter fun n => decide (n < base)

/-- The digits at the front of the text, after a value already read. -/
def readDigits (base : Nat) : Nat → List Char → Nat × List Char
  | acc, [] => (acc, [])
  | acc, c :: cs =>
    match digitValue base c with
    | some d => readDigits base (acc * base + d) cs
    | none => (acc, c :: cs)

/-- A number of at least one digit. -/
def readDigits1 (base : Nat) (cs : List Char) : Option (Nat × List Char) :=
  match cs with
  | [] => none
  | c :: rest => (digitValue base c).map fun d => readDigits base d rest

/-- A number: decimal, hexadecimal, or a character literal, "the character's ASCII code" (R80). -/
def readNumber : List Char → Option (Nat × List Char)
  | '0' :: 'x' :: cs => readDigits1 16 cs
  | '\'' :: c :: '\'' :: cs => if c.toNat < 128 then some (c.toNat, cs) else none
  | cs => readDigits1 10 cs

/-- The operands from a number on, separated by commas; the fuel bounds their number. -/
def readOperandsFrom : Nat → List Char → Option (List Nat)
  | 0, _ => none
  | fuel + 1, cs =>
    match readNumber (skipBlanks cs) with
    | none => none
    | some (n, rest) =>
      match skipBlanks rest with
      | ',' :: more => (readOperandsFrom fuel more).map (n :: ·)
      | more => if atEnd more then some [n] else none

/-- All operands of a line. -/
def readOperands (cs : List Char) : Option (List Nat) :=
  if atEnd cs then some [] else readOperandsFrom cs.length cs

/-- The characters of a string literal up to its closing quote, as ASCII codes, and the text after it. -/
def readStringBody : List Char → Option (List Nat × List Char)
  | [] => none
  | c :: cs =>
    if c.toNat = 34 then some ([], cs)
    else if 128 ≤ c.toNat then none
    else (readStringBody cs).map fun r => (c.toNat :: r.1, r.2)

/-- The operand of STRING. -/
def readString (cs : List Char) : Option (List Nat) :=
  match skipBlanks cs with
  | [] => none
  | q :: rest =>
    if q.toNat = 34 then (readStringBody rest).bind fun r => if atEnd r.2 then some r.1 else none
    else none

/-- The word at the front of a line. -/
def readWord : List Char → List Char × List Char
  | [] => ([], [])
  | c :: cs => if isBlank c || c == ';' then ([], c :: cs) else ((c :: (readWord cs).1), (readWord cs).2)

/-- The spellings of R80. -/
def spellings : List (String × Mnemonic) :=
  [("NOP", .nop), ("CLRBUF", .clrbuf), ("NIB.C", .nibC), ("NIB.D", .nibD), ("PUT.C", .putC), ("PUT.D", .putD), ("PUT.CH", .putCH),
   ("PUT.DH", .putDH), ("FLUSH", .flush)] ++
  [("WRITE.C", .writeC), ("WRITE.D", .writeD), ("WRITE.CH", .writeCH), ("WRITE.DH", .writeDH), ("SETL", .setl), ("GOTO", .goto),
   ("LDROW", .ldrow), ("DEFCHAR", .defchar), ("INIT", .init)]

/-- A pseudo-instruction by its name and its numeric operands (R81). -/
def readPseudo (name : List Char) (ops : List Nat) : Option Pseudo :=
  if name = "LIGHT.ON".toList ∧ ops = [] then some .lightOn
  else if name = "LIGHT.OFF".toList ∧ ops = [] then some .lightOff
  else if name = "CLS".toList ∧ ops = [] then some .cls
  else if name = "HOME".toList ∧ ops = [] then some .home
  else if name = "PUTSPACE".toList ∧ ops = [] then some .putspace
  else
    match ops with
    | [] => none
    | x :: xs =>
      if name = "DEFGLYPH".toList then some (.defglyph x xs)
      else if xs ≠ [] then none
      else if name = "CHAR".toList then some (.char x)
      else if name = "CMD".toList then some (.cmd x)
      else if name = "DIGIT".toList then some (.digit x)
      else if name = "PUTDIGIT".toList then some (.putdigit x)
      else none

/-- One line of source text; none where it has no reading. -/
def readLine (text : List Char) : Option Source :=
  if atEnd text then some .blank
  else
    let w := readWord (skipBlanks text)
    if w.1 = "STRING".toList then (readString w.2).map fun cs => .pseudo (.string cs)
    else
      match spellings.find? (fun e => e.1.toList == w.1) with
      | some e => (readOperands w.2).map fun ops => .command ⟨e.2, ops⟩
      | none => (readOperands w.2).bind fun ops => (readPseudo w.1 ops).map .pseudo

/-- The commands of one line of source; none where an assembler refuses it. -/
def Source.commands (p : Config.Params) : Source → Option (List Instr)
  | .blank => some []
  | .command l => (assemble l).map fun i => [i]
  | .pseudo q => if q.wf p then some q.expand else none

/-- One line of text to the words it assembles to (R80: "It assembles each line to one word by R71"; a pseudo-instruction to the words
of its expansion, R81). -/
def assembleText (p : Config.Params) (text : List Char) : Option (List Word) :=
  ((readLine text).bind (·.commands p)).map fun is => is.map encode

end Sys2Proof.Machine
end

