-- ==== Sys2Proof/Machine/Ports.lean ====
section
/-! DEFINITION. The output pins in the cycle before the coming edge, as functions of the state and of that cycle's input pins
(10_state.md R31, R33 to R36). -/

namespace Sys2Proof.Machine

open Sys2Proof

/-- The LNE's outputs. -/
structure Outputs where
  /-- `cmd_ready`. -/
  cmdReady : Bool
  /-- `rsp_valid`. -/
  rspValid : Bool
  /-- `rsp_status`. -/
  rspStatus : BitVec 3
  /-- `light_o`. -/
  lightO : Bit
  /-- `status_o`. -/
  statusO : BitVec 3
  /-- `len_o`. -/
  lenO : Nat
  /-- `busy_o`. -/
  busyO : Bool
  /-- `bus_req`. -/
  busReq : Bool
  /-- `bus_len`. -/
  busLen : Nat
  /-- `bus_rd_byte`. -/
  busRdByte : Byte
  /-- `dec_rs`, `dec_rw`, `dec_en`, `dec_bl`, `dec_nib`. -/
  dec : ByteFields
  /-- `dec_value`. -/
  decValue : Byte
  deriving DecidableEq, Repr

/-- `cmd_ready` (R31). -/
def State.cmdReady (s : State) : Bool := !s.pins.rst && s.fsm == .idle

/-- `bus_req` (R35). -/
def State.busReq (s : State) : Bool := s.fsm == .xfer

/-- `busy_o` (R34). -/
def State.busy (s : State) : Bool := s.fsm != .idle

/-- `rsp_status` (R33): the status of the completing command during the pulse, a free value otherwise (log 8). STATUS was written at
the same completion (R24, log 10). -/
def State.rspStatus (s : State) : BitVec 3 :=
  if s.rspValid then s.status else Config.freeRspStatus s.draws

/-- `bus_len` (R35): LEN while a request is up, a free value of LEN_W bits otherwise (log 8). -/
def State.busLen (s : State) : Nat :=
  if s.busReq then s.len else Config.freeBusLen s.draws % 2 ^ s.cfg.lenW

/-- `bus_rd_byte` (R35): the byte asked for while a request is up, a free value where the index is not in the buffer (log 8). -/
def State.busRdByte (s : State) (idx : Nat) : Byte :=
  if s.busReq && decide (idx < s.len) then s.buf.getD idx 0 else Config.freeBusRdByte s.draws idx

/-- All output pins. The decode port is combinational and stateless (R36). -/
def State.outputs (s : State) : Outputs where
  cmdReady := s.cmdReady
  rspValid := s.rspValid
  rspStatus := s.rspStatus
  lightO := s.bl
  statusO := s.status
  lenO := s.len
  busyO := s.busy
  busReq := s.busReq
  busLen := s.busLen
  busRdByte := s.busRdByte s.busRdIdx
  dec := decodeFields s.pins.decA
  decValue := decodePair s.pins.decA s.pins.decB

end Sys2Proof.Machine
end

