-- ==== Sys2Proof/Safety.lean ====
section
/-! DEFINITION. What a safe state and a run are, in the terms the statements use. -/

namespace Sys2Proof.Machine

open Sys2Proof

/-- The latch byte `c` of the setup byte `b` (R103): both write mode, Enable 1 then 0, same nibble, RS and Backlight. -/
def latches (b c : Byte) : Bool :=
  let x := decodeFields b
  let y := decodeFields c
  x.en == 1 && y.en == 0 && x.rw == 0 && y.rw == 0 && x.nib == y.nib && x.rs == y.rs && x.bl == y.bl

/-- The byte of a SETL (R121): nibble 0, Enable 0, RS 0, either Backlight. -/
def setlByte (b : Byte) : Bool := b == 0x00 || b == 0x08

/-- The handshake shape (R107): nibble pairs, each setup byte immediately followed by its latch byte, and SETL bytes. -/
def handshake : List Byte → Bool
  | [] => true
  | [b] => setlByte b
  | b :: c :: rest => if (decodeFields b).en = 1 then latches b c && handshake rest else setlByte b && handshake (c :: rest)

/-- Every byte carries `bl` on its Backlight bit (R108). -/
abbrev CarriesBacklight (bl : Bit) (bytes : List Byte) : Prop := ∀ b ∈ bytes, (decodeFields b).bl = bl

/-- Every byte is in write mode (R102). -/
abbrev WriteMode (bytes : List Byte) : Prop := ∀ b ∈ bytes, (decodeFields b).rw = 0

/-- A byte sequence the LNE may hold or have sent: at most `BUF_DEPTH` bytes (R22), in write mode (R102), in handshake shape (R107). -/
abbrev Sequence (p : Config.Params) (bytes : List Byte) : Prop :=
  bytes.length ≤ p.bufDepth ∧ WriteMode bytes ∧ handshake bytes = true

/-- The engine's registers belong together (R25, R55, R59, R65): a request or a wait has bytes; a wait has a continuation and time
left; INIT's buffer is the current step's; a SLOW context is a clear or home command's. -/
abbrev State.EngineLegal (s : State) : Prop :=
  (s.fsm ≠ .idle → s.buf ≠ []) ∧
  (s.fsm = .wait → s.ctx ≠ .user ∧ 0 < s.wcnt) ∧
  (s.fsm ≠ .idle → s.ctx = .init → s.buf = initBytes s.cfg s.bl s.stepReg) ∧
  (s.fsm ≠ .idle → s.ctx = .slow → ∃ v ∈ s.cfg.slowCmds, s.buf = encodeByte s.bl 0 v 0)

/-- The invariant of the LNE. The last two fields are about the model's own record (log 11): no transaction is empty or out of shape, no
response is a reserved code. -/
structure State.Inv (s : State) : Prop where
  params : s.cfg.Legal
  buffer : Sequence s.cfg s.buf
  code : s.status.toNat ≤ 5
  engine : s.EngineLegal
  record : ∀ t ∈ s.transactions, t.bytes ≠ [] ∧ Sequence s.cfg t.bytes
  answers : ∀ c ∈ s.responses, c.toNat ≤ 5

/-- `n` edges; stops at the first that stops. -/
def run : Nat → State → Outcome
  | 0, s => .next s
  | n + 1, s =>
    match step s with
    | .next t => run n t
    | .fault r => .fault r
    | .refused r => .refused r

/-- The pins at the k-th edge from now; quiet once the list is used up (log 2). -/
def State.pinsAt (s : State) (k : Nat) : Pins := s.inputs.getD k quietPins

/-- The state after an edge at which nothing else happens: the edge's pins are used up, the response pulse is over, the counter of free
values has advanced. -/
def State.edge (s : State) : State :=
  { s with inputs := s.inputs.tail, rspValid := false, draws := s.draws + 1 }

/-- The state `n` such edges later. -/
def State.edges (s : State) (n : Nat) : State :=
  { s with inputs := s.inputs.drop n, rspValid := s.rspValid && n == 0, draws := s.draws + n }

/-- The state a command that completes with a code leaves (R210): STATUS, the response, FSM = IDLE, and nothing else. -/
def State.completed (s : State) (code : BitVec 3) : State :=
  { s with status := code, fsm := .idle, rspValid := true, responses := s.responses ++ [code] }

/-- The state with `bytes` in the buffer and their transaction requested (R55). -/
def State.sending (s : State) (bytes : List Byte) (c : Ctx) : State :=
  { s with buf := bytes, fsm := .xfer, ctx := c }

/-- The commands of a list one after another, each from the state the one before left: local commands only (R37). -/
def execAll : List Instr → State → Outcome
  | [], s => .next s
  | i :: is, s =>
    match exec i s with
    | .next t => execAll is t
    | .fault r => .fault r
    | .refused r => .refused r

/-- The codes a command can complete with at its own edge in a legal configuration (R212); XFER_FAIL, and the OK of a command that
sends, come with the transport's answer or the end of a wait. -/
def immediateCodes (p : Config.Params) : Instr → List (BitVec 3)
  | .nop | .clrbuf | .ldrow _ _ | .flush => [0]
  | .nibC _ | .nibD _ | .putC _ | .putD _ | .putCH _ => [0, 4]
  | .writeC _ | .writeD _ | .writeCH _ | .init => []
  | .setl _ => if p.setlightEmits then [] else [0]
  | .goto _ _ => [2]
  | .defchar _ => [3]

/-- A count the port can carry: LEN_W + 1 bits (R35). -/
abbrev PortCount (p : Config.Params) (count : Nat) : Prop := count < 2 ^ (p.lenW + 1)

/-- An edge at which the host presents a word; every other pin but `rst` is anything. -/
abbrev Pins.Presents (p : Pins) (w : Word) : Prop := p.rst = false ∧ p.cmdValid = true ∧ p.cmdWord = w

/-- A command the host presents, and the edges it then lets pass. -/
structure Offer where
  command : Pins
  gap : List Pins
  deriving DecidableEq, Repr

/-- The pins of an offer, edge by edge. -/
def Offer.pins (o : Offer) : List Pins := o.command :: o.gap

/-- An offer of the word `w`: in the gap no command is presented and no reset comes, every other pin is anything. -/
abbrev Offer.Presents (o : Offer) (w : Word) : Prop :=
  o.command.Presents w ∧ ∀ q ∈ o.gap, q.rst = false ∧ q.cmdValid = false

/-- What the pins do from the edge after a request on: edges without an answer, the answer, and the edges of the wait after it. -/
structure Exchange where
  held : List Pins
  answer : Pins
  waited : List Pins
  deriving DecidableEq, Repr

/-- The pins of an exchange, edge by edge. -/
def Exchange.pins (e : Exchange) : List Pins := e.held ++ e.answer :: e.waited

/-- The count the LNE samples at the answer (R35). -/
def Exchange.count (e : Exchange) (p : Config.Params) : Nat := e.answer.busCount % 2 ^ (p.lenW + 1)

/-- The transport answers after the held edges, and `n` edges of a wait follow; no reset comes. Every other pin is anything: the host may
hold a command on its port, the transport may read any index, and `bus_done` is anything during the wait. -/
abbrev Exchange.Answered (e : Exchange) (n : Nat) : Prop :=
  (∀ q ∈ e.held, q.rst = false ∧ q.busDone = false) ∧ e.answer.rst = false ∧ e.answer.busDone = true ∧
  e.waited.length = n ∧ ∀ q ∈ e.waited, q.rst = false

/-- The bytes of a batch of characters (R151) with backlight `bl`. -/
def batchBytes (bl : Bit) (cs : List Byte) : List Byte := cs.flatMap fun c => encodeByte bl 1 c 0

/-- Two states that differ at most in what R20 and R38 call meaningless: CTX, STEP and WCNT in IDLE, STEP outside an INIT, WCNT
outside a wait. -/
def SameButHidden (s t : State) : Prop :=
  t = { s with ctx := t.ctx, stepReg := t.stepReg, wcnt := t.wcnt } ∧
  (s.fsm ≠ .idle → t.ctx = s.ctx) ∧
  (s.fsm ≠ .idle → s.ctx = .init → t.stepReg = s.stepReg) ∧
  (s.fsm = .wait → t.wcnt = s.wcnt)

/-- A reserved bit of the word's format is 1 (R71, R75 (b)): the zeros of R71's table, opcode by opcode. -/
def reservedBitSet (w : Word) : Bool :=
  match (w.extractLsb' 12 4).toNat with
  | 0x0 | 0x1 | 0x4 | 0xA => w.extractLsb' 0 12 != 0
  | 0x2 => w.extractLsb' 9 3 != 0 || w.extractLsb' 4 4 != 0
  | 0x3 | 0x5 => w.extractLsb' 10 2 != 0
  | 0x6 => w.extractLsb' 1 11 != 0
  | 0x8 => w.extractLsb' 11 1 != 0
  | 0x9 => w.extractLsb' 4 8 != 0
  | _ => false

/-- The words R75 calls illegal: (a) opcode 0xB to 0xF, (b) a reserved bit set, (c) PUT or WRITE with h = 1 and rs = 1 (R77). -/
def illegalWord (w : Word) : Bool :=
  decide (0xB ≤ (w.extractLsb' 12 4).toNat) || reservedBitSet w ||
  ((w.extractLsb' 12 4 == 3 || w.extractLsb' 12 4 == 5) && w.extractLsb' 9 1 == 1 && w.extractLsb' 8 1 == 1)

end Sys2Proof.Machine
end

