-- ==== Sys2Proof/Certificates/Slice0/Obligations.lean ====
section
/-! DEFINITION. The statements about the LNE, from the numbered rules of spec/. -/

section
open Sys2Proof Sys2Proof.Machine

/-! ### Reset -/

/-- R38: the reset value of every element to which the spec gives one, and of the outputs. -/
def Obligations.ResetStateHoldsSpecValues : Prop :=
  State.reset.bl = 0 ∧ State.reset.buf = [] ∧ State.reset.len = 0 ∧ (∀ k : Fin 8, State.reset.row[k] = 0) ∧
  State.reset.status = 0 ∧ State.reset.fsm = .idle ∧
  State.reset.outputs.rspValid = false ∧ State.reset.outputs.busReq = false ∧ State.reset.outputs.busyO = false

/-- R240: a reset edge in any state, whatever else the pins ask. That the record keeps its transactions and responses, and that an
abandoned transaction does not enter it, is the model's choice (log 11). -/
def Obligations.ResetEdgeForcesResetValues : Prop :=
  ∀ s : State, s.pins.rst = true →
    ∃ t, step s = .next t ∧ t.bl = s.cfg.blReset ∧ t.buf = [] ∧ t.len = 0 ∧ (∀ k : Fin 8, t.row[k] = 0) ∧ t.status = 0 ∧
      t.fsm = .idle ∧ t.rspValid = false ∧ t.cfg = s.cfg ∧ t.inputs = s.inputs.tail ∧
      t.transactions = s.transactions ∧ t.responses = s.responses

/-! ### Decoding and encoding -/

/-- Words written out from R71 and R72, one for each row of the table at least. -/
def Obligations.WordsOfTheSpecDecode : Prop :=
  decode 0x0000 = some .nop ∧ decode 0x1000 = some .clrbuf ∧ decode 0x2003 = some (.nibC 3) ∧ decode 0x210A = some (.nibD 0xA) ∧
  decode 0x3028 = some (.putC 0x28) ∧ decode 0x31FF = some (.putD 0xFF) ∧ decode 0x3230 = some (.putCH 0x30) ∧
  decode 0x4000 = some .flush ∧ decode 0x5001 = some (.writeC 0x01) ∧ decode 0x5141 = some (.writeD 0x41) ∧
  decode 0x5230 = some (.writeCH 0x30) ∧ decode 0x6001 = some (.setl 1) ∧ decode 0x7205 = some (.goto 2 5) ∧
  decode 0x831F = some (.ldrow 3 0x1F) ∧ decode 0x9008 = some (.defchar 8) ∧ decode 0xA000 = some .init

/-- No bit of an encoding is dropped: every command, with every operand its fields admit. -/
def Obligations.DecodeInvertsEncode : Prop := ∀ i : Instr, decode (encode i) = some i

/-- A legal word is the encoding of what it decodes to, so no two words mean the same and no reserved bit is ignored. -/
def Obligations.EncodeInvertsDecode : Prop := ∀ (w : Word) (i : Instr), decode w = some i → encode i = w

/-- R74: no two rows of the opcode table hold of one word. -/
def Obligations.OpcodeRowsNeverOverlap : Prop :=
  ∀ (w : Word) (j k : Fin opcodeRows.length), opcodeRows[j].holds w = true → opcodeRows[k].holds w = true → j = k

/-- R76, R77, R78: the words that are no command are those of R71's reserved zeros, of h = 1 with rs = 1, and of opcodes 0xB to 0xF. -/
def Obligations.ReservedBitsAreNeverIgnored : Prop := ∀ w : Word, (decode w).isNone = illegalWord w

/-- A word accepted in IDLE runs the command it decodes to. What the edge adds is stated: this edge's pins are used up, the response
pulse of the cycle before ends, and the counter of free values advances. -/
def Obligations.StepRunsDecodedInstruction : Prop :=
  ∀ (s : State) (i : Instr), s.pins.rst = false → s.fsm = .idle → s.pins.cmdValid = true → decode s.pins.cmdWord = some i →
    i.wf = true ∧ step s = exec i { s with inputs := s.inputs.tail, rspValid := false, draws := s.draws + 1 }

/-- R75: an illegal word is accepted and completes at once with ILLEGAL; nothing but STATUS and the response changes. -/
def Obligations.IllegalWordsOnlyWriteStatus : Prop :=
  ∀ s : State, s.pins.rst = false → s.fsm = .idle → s.pins.cmdValid = true → illegalWord s.pins.cmdWord = true →
    step s = .next { s with
      inputs := s.inputs.tail, draws := s.draws + 1, status := 5, rspValid := true, responses := s.responses ++ [5] }

/-! ### The commands -/

/-- R166, with its words. -/
def Obligations.NopOnlyCompletesOk : Prop :=
  decode 0x0000 = some .nop ∧ (∀ w : Word, 0 < w.toNat → w.toNat ≤ 0x0FFF → decode w = none) ∧
  ∀ s : State, exec .nop s = .next (s.completed 0)

/-- R130, with its word, exactly that one of its opcode. -/
def Obligations.ClrbufEmptiesTheBuffer : Prop :=
  decode 0x1000 = some .clrbuf ∧ (∀ w : Word, 0x1000 < w.toNat → w.toNat ≤ 0x1FFF → decode w = none) ∧
  ∀ s : State, exec .clrbuf s = .next ({ s with buf := [] }.completed 0)

/-- R131, with its words and its reserved bits: the nibble pair appended, or OVERFLOW with nothing appended. -/
def Obligations.NibAppendsOnePairOrOverflows : Prop :=
  (∀ w : Word, w.extractLsb' 12 4 = 2 → w.extractLsb' 9 3 ≠ 0 ∨ w.extractLsb' 4 4 ≠ 0 → decode w = none) ∧
  ∀ n : Nibble, decode (0x2000 + n.setWidth 16) = some (.nibC n) ∧ decode (0x2100 + n.setWidth 16) = some (.nibD n) ∧
  ∀ s : State,
    (s.buf.length + 2 ≤ s.cfg.bufDepth →
      exec (.nibC n) s = .next ({ s with buf := s.buf ++ [ebyte n 1 s.bl 0, ebyte n 0 s.bl 0] }.completed 0) ∧
      exec (.nibD n) s = .next ({ s with buf := s.buf ++ [ebyte n 1 s.bl 1, ebyte n 0 s.bl 1] }.completed 0)) ∧
    (s.cfg.bufDepth < s.buf.length + 2 →
      exec (.nibC n) s = .next (s.completed 4) ∧ exec (.nibD n) s = .next (s.completed 4))

/-- R133, with its words, its reserved bits and its refused mode: four bytes, or two in high-nibble-only mode, high nibble first; or OVERFLOW with nothing appended. -/
def Obligations.PutAppendsOneValueOrOverflows : Prop :=
  (∀ w : Word, w.extractLsb' 12 4 = 3 → w.extractLsb' 10 2 ≠ 0 ∨ w.extractLsb' 8 2 = 3 → decode w = none) ∧
  ∀ v : Byte, decode (0x3000 + v.setWidth 16) = some (.putC v) ∧ decode (0x3100 + v.setWidth 16) = some (.putD v) ∧
  decode (0x3200 + v.setWidth 16) = some (.putCH v) ∧
  ∀ s : State, let hi := v.extractLsb' 4 4; let lo := v.extractLsb' 0 4
    (s.buf.length + 4 ≤ s.cfg.bufDepth →
      exec (.putC v) s = .next
        ({ s with buf := s.buf ++ [ebyte hi 1 s.bl 0, ebyte hi 0 s.bl 0, ebyte lo 1 s.bl 0, ebyte lo 0 s.bl 0] }.completed 0) ∧
      exec (.putD v) s = .next
        ({ s with buf := s.buf ++ [ebyte hi 1 s.bl 1, ebyte hi 0 s.bl 1, ebyte lo 1 s.bl 1, ebyte lo 0 s.bl 1] }.completed 0)) ∧
    (s.cfg.bufDepth < s.buf.length + 4 →
      exec (.putC v) s = .next (s.completed 4) ∧ exec (.putD v) s = .next (s.completed 4)) ∧
    (s.buf.length + 2 ≤ s.cfg.bufDepth →
      exec (.putCH v) s = .next ({ s with buf := s.buf ++ [ebyte hi 1 s.bl 0, ebyte hi 0 s.bl 0] }.completed 0)) ∧
    (s.cfg.bufDepth < s.buf.length + 2 → exec (.putCH v) s = .next (s.completed 4))

/-- R140, R59 at the accepting edge, with the word: an empty buffer completes OK, any other is requested whole and kept. How the answer
decides between OK and XFER_FAIL is `AnswerFollowsContext`. -/
def Obligations.FlushRequestsTheWholeBuffer : Prop :=
  decode 0x4000 = some .flush ∧
  ∀ s : State, (s.buf = [] → exec .flush s = .next (s.completed 0)) ∧
    (s.buf ≠ [] → exec .flush s = .next (s.sending s.buf .user))

/-- R145 at the accepting edge, with its words: earlier contents discarded, the value's bytes requested, SLOW only for a full-mode
command in SLOW_CMDS. -/
def Obligations.WriteRequestsOneValue : Prop :=
  ∀ v : Byte, decode (0x5000 + v.setWidth 16) = some (.writeC v) ∧ decode (0x5100 + v.setWidth 16) = some (.writeD v) ∧
  decode (0x5200 + v.setWidth 16) = some (.writeCH v) ∧ decode (0x5300 + v.setWidth 16) = none ∧
  ∀ s : State, s.cfg.Legal → let hi := v.extractLsb' 4 4; let lo := v.extractLsb' 0 4
    exec (.writeC v) s = .next (s.sending [ebyte hi 1 s.bl 0, ebyte hi 0 s.bl 0, ebyte lo 1 s.bl 0, ebyte lo 0 s.bl 0]
      (if v ∈ s.cfg.slowCmds then .slow else .user)) ∧
    exec (.writeD v) s = .next
      (s.sending [ebyte hi 1 s.bl 1, ebyte hi 0 s.bl 1, ebyte lo 1 s.bl 1, ebyte lo 0 s.bl 1] .user) ∧
    exec (.writeCH v) s = .next (s.sending [ebyte hi 1 s.bl 0, ebyte hi 0 s.bl 0] .user)

/-- R120 to R122 at the accepting edge, with the words: BL first; with SETLIGHT_EMITS the buffer is the one byte that carries it (0x08
or 0x00), requested; without, nothing else changes and the command completes. -/
def Obligations.SetlWritesTheBacklight : Prop :=
  ∀ on : Bit, decode (0x6000 + on.setWidth 16) = some (.setl on) ∧
  ∀ s : State, s.cfg.Legal →
    (s.cfg.setlightEmits = true →
      exec (.setl on) s = .next ({ s with bl := on }.sending [if on = 1 then 0x08 else 0x00] .user)) ∧
    (s.cfg.setlightEmits = false → exec (.setl on) s = .next ({ s with bl := on }.completed 0))

/-- R195, R196 at the accepting edge, with the words: a legal position's command byte is requested; any other position changes nothing
but STATUS. -/
def Obligations.GotoRequestsThePositionOrRefusesIt : Prop :=
  ∀ (line : BitVec 4) (col : Byte), decode (0x7000 + (line.setWidth 16 <<< 8) + col.setWidth 16) = some (.goto line col) ∧
  ∀ s : State, s.cfg.Legal →
    (line.toNat < 4 → col.toNat < 20 →
      exec (.goto line col) s = .next (s.sending
        (encodeByte s.bl 0 (([0x80, 0xC0, 0x94, 0xD4] : List Byte).getD line.toNat 0 + col) 0) .user)) ∧
    (4 ≤ line.toNat ∨ 20 ≤ col.toNat → exec (.goto line col) s = .next (s.completed 2))

/-- R197: the command bytes of the legal positions, which never wrap. -/
def Obligations.PositionCommandsNeverWrap : Prop :=
  ∀ (p : Config.Params) (line : BitVec 4) (col : Byte), p.Legal → line.toNat < 4 → col.toNat < 20 →
    (lineBase p line + col).toNat = ([0x80, 0xC0, 0x94, 0xD4] : List Nat).getD line.toNat 0 + col.toNat ∧
    (lineBase p line + col).toNat ≤ 0xE7

/-- R180, with its words and its reserved bit. -/
def Obligations.LdrowWritesOneRow : Prop :=
  (∀ w : Word, w.extractLsb' 12 4 = 8 → w.extractLsb' 11 1 = 1 → decode w = none) ∧
  ∀ (idx : BitVec 3) (bm : Byte), decode (0x8000 + (idx.setWidth 16 <<< 8) + bm.setWidth 16) = some (.ldrow idx bm) ∧
  ∀ s : State, exec (.ldrow idx bm) s = .next ({ s with row := s.row.set idx.toNat bm idx.isLt }.completed 0)

/-- R182, R183 at the accepting edge, with its words: 44 bytes at their places, requested; a slot from 8 on changes nothing but STATUS. -/
def Obligations.DefcharRequestsFortyFourBytes : Prop :=
  ∀ slot : BitVec 4, decode (0x9000 + slot.setWidth 16) = some (.defchar slot) ∧
  ∀ s : State, s.cfg.Legal →
    (slot.toNat < 8 → ∃ q : List Byte, exec (.defchar slot) s = .next (s.sending q .user) ∧ q.length = 44 ∧
      q.take 4 = encodeByte s.bl 0 s.cfg.defcharEntryCmd 0 ∧
      (q.drop 4).take 4 = encodeByte s.bl 0 (0x40 ||| (slot.setWidth 8 <<< 3)) 0 ∧
      (∀ k : Fin 8, (q.drop (8 + 4 * k.val)).take 4 = encodeByte s.bl 1 (s.row[k] &&& s.cfg.defcharRowMask) 0) ∧
      q.drop 40 = encodeByte s.bl 0 s.cfg.defcharRestoreCmd 0) ∧
    (8 ≤ slot.toNat → exec (.defchar slot) s = .next (s.completed 3))

/-- R160 at the accepting edge, with its word: step 0's bytes are requested, from any state, with the current backlight. -/
def Obligations.InitStartsAtStepZero : Prop :=
  decode 0xA000 = some .init ∧
  ∀ s : State, s.cfg.Legal →
    exec .init s = .next ({ s with stepReg := 0 }.sending (encodeByte s.bl 0 s.cfg.cmdReset 1) .init)

/-- R161: command, mode and wait of every step, for every configuration, and the bytes and waits of the default one with BL = 0; the last
wait of any configuration whose T_INIT is the default is T_SLOW. -/
def Obligations.InitStepsFollowTheTable : Prop :=
  (∀ (p : Config.Params) (bl : Bit) (k : Fin 8),
    initBytes p bl k = encodeByte bl 0
      (([p.cmdReset, p.cmdReset, p.cmdReset, p.cmdFunc4, p.cmdFunc, p.cmdDispctl, p.cmdEntry, p.cmdClear] : List Byte).getD k.val 0)
      (if k.val < 4 then 1 else 0) ∧
    tInit p k = p.tInit[k]) ∧
  (∀ t : Nat, tInit { tSlow := t } 7 = t) ∧
  (List.finRange 8).map (initBytes Config.reference 0) =
    [[0x34, 0x30], [0x34, 0x30], [0x34, 0x30], [0x24, 0x20], [0x24, 0x20, 0x84, 0x80], [0x04, 0x00, 0xC4, 0xC0],
     [0x04, 0x00, 0x64, 0x60], [0x04, 0x00, 0x14, 0x10]] ∧
  (List.finRange 8).map (tInit Config.reference) = [5000, 1000, 1000, 2000, 2000, 2000, 2000, 2000]

/-! ### Transactions and waits -/

/-- R56: the transport's answer. The bytes and the count go on the record (log 11); the wait's length is `WaitCountIsTheCeiling`. -/
def Obligations.AnswerFollowsContext : Prop :=
  ∀ s : State, s.pins.rst = false → s.fsm = .xfer → s.pins.busDone = true →
    let u : State := { s.edge with transactions := s.transactions ++ [⟨s.buf, s.busCount⟩] }
    (s.busCount < s.buf.length → step s = .next (u.completed 1)) ∧
    (s.buf.length ≤ s.busCount →
      (s.ctx = .user → step s = .next (u.completed 0)) ∧
      (s.ctx = .slow → step s = .next { u with fsm := .wait, wcnt := waitCycles s.cfg s.cfg.tSlow }) ∧
      (s.ctx = .init → step s = .next { u with fsm := .wait, wcnt := waitCycles s.cfg (tInit s.cfg s.stepReg) }))

/-- R164: a short answer in an INIT ends it at once: no wait, no further step, the step's bytes and number kept. -/
def Obligations.InitStopsAtAShortAnswer : Prop :=
  ∀ s : State, s.pins.rst = false → s.fsm = .xfer → s.ctx = .init → s.pins.busDone = true → s.busCount < s.buf.length →
    step s = .next { s with
      inputs := s.inputs.tail, draws := s.draws + 1, transactions := s.transactions ++ [⟨s.buf, s.busCount⟩],
      status := 1, fsm := .idle, rspValid := true, responses := s.responses ++ [1] }

/-- R222: an edge in IDLE without a reset and without a command keeps every element of the LNE's state; the edge's pins are used up, the
response pulse is over and the counter of free values advances. -/
def Obligations.IdleEdgeKeepsTheState : Prop :=
  ∀ s : State, s.pins.rst = false → s.fsm = .idle → s.pins.cmdValid = false → step s = .next s.edge

/-- R227 (1): without an answer and without a reset the engine stays in XFER, for any number of edges, with nothing changed. -/
def Obligations.UnansweredTransactionStays : Prop :=
  ∀ (n : Nat) (s : State), s.fsm = .xfer → (∀ k < n, (s.pinsAt k).rst = false ∧ (s.pinsAt k).busDone = false) →
    run n s = .next (s.edges n)

/-- R163: `N` = ceil(T x CLK_HZ), T in microseconds (log 6), and `N` ≥ 1. -/
def Obligations.WaitCountIsTheCeiling : Prop :=
  ∀ (p : Config.Params) (t : Nat), p.Legal → 0 < t →
    1 ≤ waitCycles p t ∧ t * p.clkHz.freq ≤ waitCycles p t * 1000000 ∧ (waitCycles p t - 1) * 1000000 < t * p.clkHz.freq

/-- R163: from a count of n + 1, n edges without a reset, whatever else the pins ask, leave the wait at its last edge; a reset apart
nothing shortens it. -/
def Obligations.WaitLastsItsCount : Prop :=
  ∀ (n : Nat) (s : State), s.fsm = .wait → s.wcnt = n + 1 → (∀ k < n, (s.pinsAt k).rst = false) →
    run n s = .next { s.edges n with wcnt := 1 }

/-- R150, R162: what the last edge of a wait does. -/
def Obligations.WaitEndsInItsContinuation : Prop :=
  ∀ s : State, s.cfg.Legal → s.pins.rst = false → s.fsm = .wait → s.wcnt ≤ 1 →
    (s.ctx = .slow → step s = .next (s.edge.completed 0)) ∧
    (s.ctx = .init → s.stepReg.val < 7 → step s = .next
      ({ s.edge with stepReg := s.stepReg + 1 }.sending (initBytes s.cfg s.bl (s.stepReg + 1)) .init)) ∧
    (s.ctx = .init → s.stepReg = 7 → step s = .next (s.edge.completed 0))

/-- R160 to R163: an INIT whose eight answers are all long enough, each after any time, issues exactly its eight transactions, waits
after each, and completes OK, whatever the other pins do meanwhile; nothing else changes but CTX, STEP and WCNT, which mean nothing in
IDLE (R20). -/
def Obligations.InitRunsItsEightSteps : Prop :=
  ∀ (s : State) (p : Pins) (e : Fin 8 → Exchange) (rest : List Pins), s.cfg.Legal → s.fsm = .idle → p.Presents 0xA000 →
    (∀ k, (e k).Answered (waitCycles s.cfg (tInit s.cfg k)) ∧ (initBytes s.cfg s.bl k).length ≤ (e k).count s.cfg) →
    let script := p :: (List.finRange 8).flatMap fun k => (e k).pins
    s.inputs = script ++ rest →
    ∃ x k w, run script.length s = .next { s with
      buf := initBytes s.cfg s.bl 7, status := 0, fsm := .idle, ctx := x, stepReg := k, wcnt := w, rspValid := true, inputs := rest,
      draws := s.draws + script.length,
      transactions := s.transactions ++ (List.finRange 8).map (fun k => ⟨initBytes s.cfg s.bl k, (e k).count s.cfg⟩),
      responses := s.responses ++ [0] }

/-- R150: WRITE.C of a value in SLOW_CMDS, answered in full after any time, completes OK only when its wait has run, whatever the other
pins do meanwhile (CTX and WCNT mean nothing then, R20). -/
def Obligations.SlowWriteWaitsThenCompletes : Prop :=
  ∀ (s : State) (v : Byte) (p : Pins) (e : Exchange) (rest : List Pins), s.cfg.Legal → s.fsm = .idle → v ∈ s.cfg.slowCmds →
    p.Presents (0x5000 + v.setWidth 16) → e.Answered (waitCycles s.cfg s.cfg.tSlow) → 4 ≤ e.count s.cfg →
    s.inputs = p :: e.pins ++ rest →
    (∃ t, run (e.held.length + 2) s = .next t ∧ t.fsm = .wait ∧ t.wcnt = waitCycles s.cfg s.cfg.tSlow ∧ t.rspValid = false ∧
      t.responses = s.responses) ∧
    ∃ x w, run (e.pins.length + 1) s = .next { s with
      buf := encodeByte s.bl 0 v 0, status := 0, ctx := x, wcnt := w, rspValid := true, inputs := rest,
      draws := s.draws + (e.pins.length + 1),
      transactions := s.transactions ++ [⟨encodeByte s.bl 0 v 0, e.count s.cfg⟩], responses := s.responses ++ [0] }

/-- R123: BL has its new value at every edge of its transaction, and keeps it whatever the answer is and whenever it comes, whatever the
other pins do meanwhile. -/
def Obligations.SetlKeepsTheNewBacklight : Prop :=
  ∀ (s : State) (on : Bit) (p : Pins) (e : Exchange) (rest : List Pins), s.cfg.Legal → s.cfg.setlightEmits = true → s.fsm = .idle →
    p.Presents (0x6000 + on.setWidth 16) → e.Answered 0 → s.inputs = p :: e.pins ++ rest →
    (∀ k ≤ e.held.length, ∃ t, run (k + 1) s = .next t ∧ t.bl = on ∧ t.fsm = .xfer) ∧
    ∃ t, run (e.held.length + 2) s = .next t ∧ t.bl = on ∧ t.fsm = .idle ∧
      t.status = (if e.count s.cfg = 0 then 1 else 0) ∧ t.responses = s.responses ++ [if e.count s.cfg = 0 then 1 else 0]

/-- R151: a batch of PUT.D commands, the host waiting as it likes between them, is one transaction of four bytes a character, all with the
backlight of that time; FLUSH completes by the count, and the pins that the LNE does not look at do anything. (k = 0 is R59's: no
transaction. CTX means nothing in IDLE, R20.) -/
def Obligations.BatchIsOneTransaction : Prop :=
  ∀ (s : State) (clr : Offer) (cs : List (Byte × Offer)) (flush : Pins) (e : Exchange) (rest : List Pins), s.fsm = .idle → cs ≠ [] →
    4 * cs.length ≤ s.cfg.bufDepth → clr.Presents 0x1000 → (∀ c ∈ cs, c.2.Presents (0x3100 + c.1.setWidth 16)) →
    flush.Presents 0x4000 → e.Answered 0 →
    let script := clr.pins ++ cs.flatMap (fun c => c.2.pins) ++ flush :: e.pins
    s.inputs = script ++ rest →
    let bytes := batchBytes s.bl (cs.map Prod.fst)
    let code : BitVec 3 := if e.count s.cfg < 4 * cs.length then 1 else 0
    bytes.length = 4 * cs.length ∧
    ∃ x, run script.length s = .next { s with
      buf := bytes, status := code, ctx := x, rspValid := true, inputs := rest, draws := s.draws + script.length,
      transactions := s.transactions ++ [⟨bytes, e.count s.cfg⟩],
      responses := s.responses ++ List.replicate (cs.length + 1) 0 ++ [code] }

/-! ### The expander byte -/

/-- R100: which bit of an expander byte is what. -/
def Obligations.ExpanderByteLayout : Prop :=
  ∀ (n : Nibble) (en bl rs : Bit),
    (ebyte n en bl rs).getLsbD 0 = rs.getLsbD 0 ∧ (ebyte n en bl rs).getLsbD 1 = false ∧
    (ebyte n en bl rs).getLsbD 2 = en.getLsbD 0 ∧ (ebyte n en bl rs).getLsbD 3 = bl.getLsbD 0 ∧
    ∀ j : Fin 4, (ebyte n en bl rs).getLsbD (j.val + 4) = n.getLsbD j.val

/-- R105: the composed bytes are exactly those with R/W = 0, and field decode gives back what they were composed of. -/
def Obligations.FieldDecodeFindsTheComposition : Prop :=
  ∀ b : Byte, ((decodeFields b).rw = 1 ↔ b.getLsbD 1 = true) ∧
    (b.getLsbD 1 = false → ebyte (decodeFields b).nib (decodeFields b).en (decodeFields b).bl (decodeFields b).rs = b)

/-- R109: encoding and decoding the two latched nibbles, or the two set up, gives the value back; in high-nibble-only mode only the
high nibble is sent. -/
def Obligations.ValuesSurviveEncoding : Prop :=
  ∀ (bl rs : Bit) (v : Byte),
    (∃ a b c d, encodeByte bl rs v 0 = [a, b, c, d] ∧ decodePair b d = v ∧ decodePair a c = v) ∧
    ∃ a b, encodeByte bl rs v 1 = [a, b] ∧ (decodeFields b).nib = v.extractLsb' 4 4

/-! ### Invariants and whole-machine rules -/

/-- The invariant holds right after reset. -/
def Obligations.InvariantHoldsAtReset : Prop := State.reset.Inv

/-- The invariant of the machine (buffer within its depth, in write mode and in handshake shape; STATUS a code; the engine's registers
belonging together; every transaction whole and not empty) is kept by every edge, from every state. -/
def Obligations.StepKeepsInvariant : Prop := ∀ s t : State, s.Inv → step s = .next t → t.Inv

/-- No edge stops, from any state whatever, and no command does. -/
def Obligations.NothingStopsTheMachine : Prop :=
  (∀ s : State, ∃ t, step s = .next t) ∧ ∀ (i : Instr) (s : State), ∃ t, exec i s = .next t

/-- The last edge of a wait that no rule began (log 12): it goes on, by a free value, in one of the ways an edge of a wait can. -/
def Obligations.WaitWithoutContinuationGoesOn : Prop :=
  ∀ s : State, s.cfg.Legal → s.pins.rst = false → s.fsm = .wait → s.wcnt ≤ 1 → s.ctx = .user →
    (∃ n, step s = .next { s.edge with wcnt := n }) ∨ step s = .next (s.edge.completed 0) ∨
    ∃ k, step s = .next ({ s.edge with stepReg := k }.sending (initBytes s.cfg s.bl k) .init)

/-- R243: whatever the LNE powers up with, it runs any number of edges, and the first reset edge then gives the reset values. -/
def Obligations.ResetIsReachedFromAnyPowerUpState : Prop :=
  ∀ (n : Nat) (s : State), (s.pinsAt n).rst = true →
    ∃ t, run (n + 1) s = .next t ∧ t.bl = s.cfg.blReset ∧ t.buf = [] ∧ t.len = 0 ∧ (∀ k : Fin 8, t.row[k] = 0) ∧ t.status = 0 ∧
      t.fsm = .idle ∧ t.rspValid = false ∧ t.cfg = s.cfg

/-- R9: the parameters are fixed. -/
def Obligations.ParametersNeverChange : Prop := ∀ s t : State, step s = .next t → t.cfg = s.cfg

/-- R124: an edge changes BL only by a reset or by accepting a SETL; under the invariant, what an INIT has in the buffer carries the
current BL. -/
def Obligations.OnlySetlWritesTheBacklight : Prop :=
  (∀ s t : State, step s = .next t → t.bl = s.bl ∨ s.pins.rst = true ∨
    (s.fsm = .idle ∧ s.pins.cmdValid = true ∧ ∃ on, decode s.pins.cmdWord = some (.setl on) ∧ t.bl = on)) ∧
  ∀ s t : State, s.Inv → step s = .next t → t.fsm ≠ .idle → t.ctx = .init → CarriesBacklight t.bl t.buf

/-- R181: a row changes only by a reset or by accepting an LDROW of its own index. -/
def Obligations.RowsKeepTheirValues : Prop :=
  ∀ (s t : State) (k : Fin 8), step s = .next t → t.row[k] = s.row[k] ∨ s.pins.rst = true ∨
    (s.fsm = .idle ∧ s.pins.cmdValid = true ∧
      ∃ idx bm, decode s.pins.cmdWord = some (.ldrow idx bm) ∧ idx.toNat = k.val ∧ t.row[k] = bm)

/-- R24, R33, R210: a response and a write of STATUS come together, once, with FSM = IDLE; a reset edge apart nothing else writes
STATUS, and every pulse is of one edge. -/
def Obligations.StatusIsWrittenWithTheResponse : Prop :=
  ∀ s t : State, step s = .next t → s.pins.rst = false →
    (t.rspValid = true ∧ t.responses = s.responses ++ [t.status] ∧ t.fsm = .idle) ∨
    (t.rspValid = false ∧ t.responses = s.responses ∧ t.status = s.status)

/-- R102: no composition sets bit 1, and no edge puts a byte with R/W = 1 into the buffer. -/
def Obligations.BufferStaysInWriteMode : Prop :=
  (∀ (n : Nibble) (en bl rs : Bit), (ebyte n en bl rs).getLsbD 1 = false) ∧
  ∀ s t : State, WriteMode s.buf → step s = .next t → WriteMode t.buf

/-- R107: an edge keeps the handshake shape, and in that shape every byte with Enable = 1 is followed at once by its latch byte. -/
def Obligations.SetupIsFollowedByLatch : Prop :=
  ∀ s t : State, handshake s.buf = true → step s = .next t →
    handshake t.buf = true ∧
    ∀ k b, t.buf[k]? = some b → (decodeFields b).en = 1 → ∃ c, t.buf[k + 1]? = some c ∧ latches b c = true

/-- R108: a buffer whose bytes all carry BL keeps doing so at every edge, unless a SETL that sends nothing changes BL under it. -/
def Obligations.BacklightIsUniform : Prop :=
  ∀ s t : State, CarriesBacklight s.bl s.buf → step s = .next t →
    (s.cfg.setlightEmits = true ∨ t.bl = s.bl ∨ s.pins.rst = true) → CarriesBacklight t.bl t.buf

/-- R51, R55, R58: a transaction goes on the record only when the transport answers, as the whole buffer with that one count. -/
def Obligations.TransactionsAreWholeBuffers : Prop :=
  ∀ s t : State, step s = .next t → t.transactions = s.transactions ∨
    (s.pins.rst = false ∧ s.fsm = .xfer ∧ s.pins.busDone = true ∧
      t.transactions = s.transactions ++ [⟨s.buf, s.busCount⟩])

/-- R65: while a transaction is outstanding, through its answer, and within a wait, the buffer, BL and the rows stay; the transport
reads the buffer's bytes. The last edge of a wait is not in it: there INIT composes its next step (R162). -/
def Obligations.BufferIsStableInXferAndWithinWaits : Prop :=
  (∀ s t : State, s.pins.rst = false → step s = .next t → s.fsm = .xfer ∨ (s.fsm = .wait ∧ t.fsm = .wait) →
    t.buf = s.buf ∧ t.bl = s.bl ∧ t.row = s.row) ∧
  ∀ (s : State) (k : Nat) (b : Byte), s.fsm = .xfer → s.buf[k]? = some b →
    s.busRdByte k = b ∧ (s.busRdIdx = k → s.outputs.busRdByte = b)

/-- R32, R217: outside IDLE the command port is not looked at; outside XFER the transport's answer is not. -/
def Obligations.BusyEngineIgnoresOtherPorts : Prop :=
  ∀ (s : State) (p : Pins) (ps : List Pins), s.inputs = p :: ps →
    (∀ (v : Bool) (w : Word), s.fsm ≠ .idle →
      step { s with inputs := { p with cmdValid := v, cmdWord := w } :: ps } = step s) ∧
    (∀ (v : Bool) (n : Nat), s.fsm ≠ .xfer →
      step { s with inputs := { p with busDone := v, busCount := n } :: ps } = step s)

/-- R20, R38: CTX, STEP and WCNT are meaningless where the spec says so: two states that differ in nothing else show the same outputs
and go on to such states. -/
def Obligations.HiddenRegistersAreUnobservable : Prop :=
  ∀ s t : State, SameButHidden s t →
    s.outputs = t.outputs ∧
    ∃ s' t', step s = .next s' ∧ step t = .next t' ∧ SameButHidden s' t'

/-- R31, R33, R34, R35: the ready, busy, light, status, length and request outputs. That rsp_status is STATUS while rsp_valid is 1 is
read from R24 and R33 (log 10). -/
def Obligations.OutputsFollowTheRegisters : Prop :=
  ∀ s : State, s.outputs.lightO = s.bl ∧ s.outputs.statusO = s.status ∧ s.outputs.lenO = s.buf.length ∧
    (s.outputs.busyO = true ↔ s.fsm ≠ .idle) ∧ (s.outputs.cmdReady = true ↔ s.pins.rst = false ∧ s.fsm = .idle) ∧
    (s.outputs.busReq = true ↔ s.fsm = .xfer) ∧ (s.fsm = .xfer → s.outputs.busLen = s.buf.length) ∧
    s.outputs.rspValid = s.rspValid ∧ (s.outputs.rspValid = true → s.outputs.rspStatus = s.status)

/-- R10, R35: under the invariant the length outputs fit in LEN_W bits, which are 8 in the default configuration; in any state the
transport's index and count are what their ports carry. -/
def Obligations.LengthFitsItsWidth : Prop :=
  Config.reference.lenW = 8 ∧
  (∀ p : Config.Params, p.Legal → p.bufDepth < 2 ^ p.lenW ∧ 2 ^ (p.lenW - 1) ≤ p.bufDepth) ∧
  (∀ s : State, s.Inv → s.outputs.lenO < 2 ^ s.cfg.lenW ∧ s.outputs.busLen < 2 ^ s.cfg.lenW) ∧
  ∀ s : State, s.busRdIdx < 2 ^ s.cfg.lenW ∧ s.busCount < 2 ^ (s.cfg.lenW + 1)

/-- R211: the codes. -/
def Obligations.StatusCodesAreTheTable : Prop :=
  Status.code .ok = 0 ∧ Status.code .xferFail = 1 ∧ Status.code .badPos = 2 ∧ Status.code .badSlot = 3 ∧
  Status.code .overflow = 4 ∧ Status.code .illegal = 5 ∧ ∀ st : Status, st.code ≠ 6 ∧ st.code ≠ 7

/-- R36: the decode port, and that no edge looks at it. -/
def Obligations.DecodePortReadsTheFields : Prop :=
  (∀ (s : State) (p : Pins) (ps : List Pins) (a b : Byte), s.inputs = p :: ps →
    step { s with inputs := { p with decA := a, decB := b } :: ps } = step s) ∧
  ∀ s : State, let a := s.pins.decA; let b := s.pins.decB
    s.outputs.dec.rs = a.extractLsb' 0 1 ∧ s.outputs.dec.rw = a.extractLsb' 1 1 ∧ s.outputs.dec.en = a.extractLsb' 2 1 ∧
    s.outputs.dec.bl = a.extractLsb' 3 1 ∧ s.outputs.dec.nib = a.extractLsb' 4 4 ∧
    s.outputs.decValue.toNat = 16 * (a.toNat / 16) + b.toNat / 16

/-- R212: the codes a command can complete with at its own edge. -/
def Obligations.CommandsAnswerOnlyTheirCodes : Prop :=
  ∀ (i : Instr) (s t : State), s.cfg.Legal → exec i s = .next t →
    (t.fsm = .xfer ∧ t.responses = s.responses) ∨
    (t.fsm = .idle ∧ ∃ c ∈ immediateCodes s.cfg i, t.responses = s.responses ++ [c] ∧ t.status = c)

/-! ### The assembler -/

/-- R80: assembling and spelling are inverse on the well-formed lines, and an assembler refuses every other line. -/
def Obligations.AssemblerIsExact : Prop :=
  (∀ i : Instr, i.line.wf = true ∧ assemble i.line = some i) ∧
  (∀ l : AsmLine, l.wf = true → ∃ i, assemble l = some i ∧ i.line = l) ∧
  ∀ l : AsmLine, l.wf = false → assemble l = none

/-- R81, DEFGLYPH: the LDROWs of its expansion leave the eight rows in ROW[0..7] and nothing else changed but the responses. -/
def Obligations.DefglyphStagesItsRows : Prop :=
  ∀ (s : State) (slot : Nat) (r : Vector Byte 8),
    (Pseudo.defglyph slot (r.toList.map BitVec.toNat)).expand =
      ldrows 0 (r.toList.map BitVec.toNat) ++ [.defchar (BitVec.ofNat 4 slot)] ∧
    execAll (ldrows 0 (r.toList.map BitVec.toNat)) s = .next { s with
      row := r, status := 0, fsm := .idle, rspValid := true, responses := s.responses ++ List.replicate 8 0 }

end
end

