-- ==== Sys2Proof/Laws/Operands.lean ====
section
/-! SUPPORT. The small lemmas of the expander-byte functions (40_expander_byte.md). -/

namespace Sys2Proof.Machine

open Sys2Proof

@[simp] theorem decodeFields_ebyte (n : Nibble) (en bl rs : Bit) :
    decodeFields (ebyte n en bl rs) = ⟨rs, 0, en, bl, n⟩ := by
  revert n en bl rs; decide

@[simp] theorem nibblePair_length (bl rs : Bit) (n : Nibble) : (nibblePair bl rs n).length = 2 := rfl

/-- Four bytes in full mode, two in high-nibble-only mode (R104). -/
@[simp] theorem encodeByte_length (bl rs : Bit) (v : Byte) (h : Bit) :
    (encodeByte bl rs v h).length = if h = 0 then 4 else 2 := by
  unfold encodeByte; split <;> rfl

theorem encodeByte_length_full (bl rs : Bit) (v : Byte) : (encodeByte bl rs v 0).length = 4 := rfl

theorem encodeByte_length_high (bl rs : Bit) (v : Byte) : (encodeByte bl rs v 1).length = 2 := rfl

theorem encodeByte_length_le (bl rs : Bit) (v : Byte) (h : Bit) : (encodeByte bl rs v h).length ≤ 4 := by
  rw [encodeByte_length]; split <;> omega

theorem encodeByte_ne_nil (bl rs : Bit) (v : Byte) (h : Bit) : encodeByte bl rs v h ≠ [] := by
  unfold encodeByte nibblePair; split <;> simp

@[simp] theorem latches_ebyte (n : Nibble) (bl rs : Bit) : latches (ebyte n 1#1 bl rs) (ebyte n 0#1 bl rs) = true := by
  simp [latches]

theorem nibblePair_carries (bl rs : Bit) (n : Nibble) : CarriesBacklight bl (nibblePair bl rs n) := by
  simp [nibblePair, CarriesBacklight]

theorem nibblePair_writeMode (bl rs : Bit) (n : Nibble) : WriteMode (nibblePair bl rs n) := by
  simp [nibblePair, WriteMode]

theorem nibblePair_handshake (bl rs : Bit) (n : Nibble) : handshake (nibblePair bl rs n) = true := by
  simp [nibblePair, handshake]

theorem handshake_pair_append (n : Nibble) (bl rs : Bit) (q : List Byte) :
    handshake (ebyte n 1 bl rs :: ebyte n 0 bl rs :: q) = handshake q := by
  simp [handshake]

/-- A SETL byte has Enable 0 (R121). -/
theorem setlByte_en {b : Byte} (h : setlByte b = true) : (decodeFields b).en = 0 := by
  revert h; revert b; decide

theorem setlByte_rw {b : Byte} (h : setlByte b = true) : (decodeFields b).rw = 0 := by
  revert h; revert b; decide

/-- Handshake shape is kept by concatenation (R107). -/
theorem handshake_append : ∀ a b : List Byte, handshake a = true → handshake b = true → handshake (a ++ b) = true
  | [], b, _, hb => by simpa using hb
  | [x], [], ha, _ => by simpa using ha
  | [x], y :: b, ha, hb => by
    have hx : setlByte x = true := by simpa [handshake] using ha
    simp [handshake, setlByte_en hx, hx, hb]
  | x :: y :: a, b, ha, hb => by
    rw [handshake] at ha
    simp only [List.cons_append]
    rw [handshake]
    split
    · rename_i hx
      rw [if_pos hx, Bool.and_eq_true] at ha
      rw [ha.1, handshake_append a b ha.2 hb]; rfl
    · rename_i hx
      rw [if_neg hx, Bool.and_eq_true] at ha
      have := handshake_append (y :: a) b ha.2 hb
      rw [List.cons_append] at this
      rw [ha.1, this]; rfl

theorem encodeByte_carries (bl rs : Bit) (v : Byte) (h : Bit) : CarriesBacklight bl (encodeByte bl rs v h) := by
  unfold encodeByte; split <;> simp [nibblePair, CarriesBacklight]

theorem encodeByte_writeMode (bl rs : Bit) (v : Byte) (h : Bit) : WriteMode (encodeByte bl rs v h) := by
  unfold encodeByte; split <;> simp [nibblePair, WriteMode]

theorem encodeByte_handshake (bl rs : Bit) (v : Byte) (h : Bit) : handshake (encodeByte bl rs v h) = true := by
  unfold encodeByte
  split
  · exact handshake_append _ _ (nibblePair_handshake ..) (nibblePair_handshake ..)
  · exact nibblePair_handshake ..

/-- The SETL byte (R121). -/
theorem setlByte_ebyte (on : Bit) : setlByte (ebyte 0 0 on 0) = true := by
  revert on; decide

theorem handshake_flatten : ∀ qs : List (List Byte), (∀ q ∈ qs, handshake q = true) → handshake qs.flatten = true
  | [], _ => rfl
  | q :: qs, h => by
    rw [List.flatten_cons]
    exact handshake_append _ _ (h q (by simp)) (handshake_flatten qs fun x hx => h x (by simp [hx]))

end Sys2Proof.Machine
end

