-- ==== Sys2Proof/Laws/State.lean ====
section
/-! SUPPORT. One lemma per field per update of State, so that no later proof unfolds a record update. -/

namespace Sys2Proof.Machine

open Sys2Proof

@[simp] theorem State.completeOk_eq (s : State) : s.completeOk = s.finish .ok := rfl
@[simp] theorem State.raise_eq (s : State) (st : Status) : s.raise st = s.finish st := rfl

@[simp] theorem State.beginEdge_cfg (s : State) : s.beginEdge.cfg = s.cfg := rfl
@[simp] theorem State.beginEdge_bl (s : State) : s.beginEdge.bl = s.bl := rfl
@[simp] theorem State.beginEdge_buf (s : State) : s.beginEdge.buf = s.buf := rfl
@[simp] theorem State.beginEdge_row (s : State) : s.beginEdge.row = s.row := rfl
@[simp] theorem State.beginEdge_status (s : State) : s.beginEdge.status = s.status := rfl
@[simp] theorem State.beginEdge_fsm (s : State) : s.beginEdge.fsm = s.fsm := rfl
@[simp] theorem State.beginEdge_ctx (s : State) : s.beginEdge.ctx = s.ctx := rfl
@[simp] theorem State.beginEdge_stepReg (s : State) : s.beginEdge.stepReg = s.stepReg := rfl
@[simp] theorem State.beginEdge_wcnt (s : State) : s.beginEdge.wcnt = s.wcnt := rfl
@[simp] theorem State.beginEdge_rspValid (s : State) : s.beginEdge.rspValid = false := rfl
@[simp] theorem State.beginEdge_inputs (s : State) : s.beginEdge.inputs = s.inputs.tail := rfl
@[simp] theorem State.beginEdge_draws (s : State) : s.beginEdge.draws = s.draws + 1 := rfl
@[simp] theorem State.beginEdge_transactions (s : State) : s.beginEdge.transactions = s.transactions := rfl
@[simp] theorem State.beginEdge_responses (s : State) : s.beginEdge.responses = s.responses := rfl
@[simp] theorem State.beginEdge_len (s : State) : s.beginEdge.len = s.len := rfl

@[simp] theorem State.resetAction_cfg (s : State) : s.resetAction.cfg = s.cfg := rfl
@[simp] theorem State.resetAction_bl (s : State) : s.resetAction.bl = s.cfg.blReset := rfl
@[simp] theorem State.resetAction_buf (s : State) : s.resetAction.buf = [] := rfl
@[simp] theorem State.resetAction_row (s : State) : s.resetAction.row = (#v[0x00, 0x00, 0x00, 0x00, 0x00, 0x00, 0x00, 0x00] : Vector Byte 8) := rfl
@[simp] theorem State.resetAction_status (s : State) : s.resetAction.status = Status.code .ok := rfl
@[simp] theorem State.resetAction_fsm (s : State) : s.resetAction.fsm = .idle := rfl
@[simp] theorem State.resetAction_ctx (s : State) : s.resetAction.ctx = ctxOfDraw (Config.freeCtx s.draws) := rfl
@[simp] theorem State.resetAction_stepReg (s : State) : s.resetAction.stepReg = Config.freeStep s.draws := rfl
@[simp] theorem State.resetAction_wcnt (s : State) : s.resetAction.wcnt = Config.freeWcnt s.draws := rfl
@[simp] theorem State.resetAction_rspValid (s : State) : s.resetAction.rspValid = false := rfl
@[simp] theorem State.resetAction_inputs (s : State) : s.resetAction.inputs = s.inputs := rfl
@[simp] theorem State.resetAction_draws (s : State) : s.resetAction.draws = s.draws := rfl
@[simp] theorem State.resetAction_transactions (s : State) : s.resetAction.transactions = s.transactions := rfl
@[simp] theorem State.resetAction_responses (s : State) : s.resetAction.responses = s.responses := rfl
@[simp] theorem State.resetAction_len (s : State) : s.resetAction.len = 0 := rfl

@[simp] theorem State.finish_cfg (s : State) (st : Status) : (s.finish st).cfg = s.cfg := rfl
@[simp] theorem State.finish_bl (s : State) (st : Status) : (s.finish st).bl = s.bl := rfl
@[simp] theorem State.finish_buf (s : State) (st : Status) : (s.finish st).buf = s.buf := rfl
@[simp] theorem State.finish_row (s : State) (st : Status) : (s.finish st).row = s.row := rfl
@[simp] theorem State.finish_status (s : State) (st : Status) : (s.finish st).status = st.code := rfl
@[simp] theorem State.finish_fsm (s : State) (st : Status) : (s.finish st).fsm = .idle := rfl
@[simp] theorem State.finish_ctx (s : State) (st : Status) : (s.finish st).ctx = s.ctx := rfl
@[simp] theorem State.finish_stepReg (s : State) (st : Status) : (s.finish st).stepReg = s.stepReg := rfl
@[simp] theorem State.finish_wcnt (s : State) (st : Status) : (s.finish st).wcnt = s.wcnt := rfl
@[simp] theorem State.finish_rspValid (s : State) (st : Status) : (s.finish st).rspValid = true := rfl
@[simp] theorem State.finish_inputs (s : State) (st : Status) : (s.finish st).inputs = s.inputs := rfl
@[simp] theorem State.finish_draws (s : State) (st : Status) : (s.finish st).draws = s.draws := rfl
@[simp] theorem State.finish_transactions (s : State) (st : Status) : (s.finish st).transactions = s.transactions := rfl
@[simp] theorem State.finish_responses (s : State) (st : Status) : (s.finish st).responses = s.responses ++ [st.code] := rfl
@[simp] theorem State.finish_len (s : State) (st : Status) : (s.finish st).len = s.len := rfl

@[simp] theorem State.clearBuf_cfg (s : State) : s.clearBuf.cfg = s.cfg := rfl
@[simp] theorem State.clearBuf_bl (s : State) : s.clearBuf.bl = s.bl := rfl
@[simp] theorem State.clearBuf_buf (s : State) : s.clearBuf.buf = [] := rfl
@[simp] theorem State.clearBuf_row (s : State) : s.clearBuf.row = s.row := rfl
@[simp] theorem State.clearBuf_status (s : State) : s.clearBuf.status = s.status := rfl
@[simp] theorem State.clearBuf_fsm (s : State) : s.clearBuf.fsm = s.fsm := rfl
@[simp] theorem State.clearBuf_ctx (s : State) : s.clearBuf.ctx = s.ctx := rfl
@[simp] theorem State.clearBuf_stepReg (s : State) : s.clearBuf.stepReg = s.stepReg := rfl
@[simp] theorem State.clearBuf_wcnt (s : State) : s.clearBuf.wcnt = s.wcnt := rfl
@[simp] theorem State.clearBuf_rspValid (s : State) : s.clearBuf.rspValid = s.rspValid := rfl
@[simp] theorem State.clearBuf_inputs (s : State) : s.clearBuf.inputs = s.inputs := rfl
@[simp] theorem State.clearBuf_draws (s : State) : s.clearBuf.draws = s.draws := rfl
@[simp] theorem State.clearBuf_transactions (s : State) : s.clearBuf.transactions = s.transactions := rfl
@[simp] theorem State.clearBuf_responses (s : State) : s.clearBuf.responses = s.responses := rfl
@[simp] theorem State.clearBuf_len (s : State) : s.clearBuf.len = 0 := rfl

@[simp] theorem State.pushBytes_cfg (s : State) (q : List Byte) : (s.pushBytes q).cfg = s.cfg := rfl
@[simp] theorem State.pushBytes_bl (s : State) (q : List Byte) : (s.pushBytes q).bl = s.bl := rfl
@[simp] theorem State.pushBytes_buf (s : State) (q : List Byte) : (s.pushBytes q).buf = s.buf ++ q := rfl
@[simp] theorem State.pushBytes_row (s : State) (q : List Byte) : (s.pushBytes q).row = s.row := rfl
@[simp] theorem State.pushBytes_status (s : State) (q : List Byte) : (s.pushBytes q).status = s.status := rfl
@[simp] theorem State.pushBytes_fsm (s : State) (q : List Byte) : (s.pushBytes q).fsm = s.fsm := rfl
@[simp] theorem State.pushBytes_ctx (s : State) (q : List Byte) : (s.pushBytes q).ctx = s.ctx := rfl
@[simp] theorem State.pushBytes_stepReg (s : State) (q : List Byte) : (s.pushBytes q).stepReg = s.stepReg := rfl
@[simp] theorem State.pushBytes_wcnt (s : State) (q : List Byte) : (s.pushBytes q).wcnt = s.wcnt := rfl
@[simp] theorem State.pushBytes_rspValid (s : State) (q : List Byte) : (s.pushBytes q).rspValid = s.rspValid := rfl
@[simp] theorem State.pushBytes_inputs (s : State) (q : List Byte) : (s.pushBytes q).inputs = s.inputs := rfl
@[simp] theorem State.pushBytes_draws (s : State) (q : List Byte) : (s.pushBytes q).draws = s.draws := rfl
@[simp] theorem State.pushBytes_transactions (s : State) (q : List Byte) : (s.pushBytes q).transactions = s.transactions := rfl
@[simp] theorem State.pushBytes_responses (s : State) (q : List Byte) : (s.pushBytes q).responses = s.responses := rfl
@[simp] theorem State.pushBytes_len (s : State) (q : List Byte) : (s.pushBytes q).len = s.len + q.length :=
  List.length_append

@[simp] theorem State.setBl_cfg (s : State) (on : Bit) : (s.setBl on).cfg = s.cfg := rfl
@[simp] theorem State.setBl_bl (s : State) (on : Bit) : (s.setBl on).bl = on := rfl
@[simp] theorem State.setBl_buf (s : State) (on : Bit) : (s.setBl on).buf = s.buf := rfl
@[simp] theorem State.setBl_row (s : State) (on : Bit) : (s.setBl on).row = s.row := rfl
@[simp] theorem State.setBl_status (s : State) (on : Bit) : (s.setBl on).status = s.status := rfl
@[simp] theorem State.setBl_fsm (s : State) (on : Bit) : (s.setBl on).fsm = s.fsm := rfl
@[simp] theorem State.setBl_ctx (s : State) (on : Bit) : (s.setBl on).ctx = s.ctx := rfl
@[simp] theorem State.setBl_stepReg (s : State) (on : Bit) : (s.setBl on).stepReg = s.stepReg := rfl
@[simp] theorem State.setBl_wcnt (s : State) (on : Bit) : (s.setBl on).wcnt = s.wcnt := rfl
@[simp] theorem State.setBl_rspValid (s : State) (on : Bit) : (s.setBl on).rspValid = s.rspValid := rfl
@[simp] theorem State.setBl_inputs (s : State) (on : Bit) : (s.setBl on).inputs = s.inputs := rfl
@[simp] theorem State.setBl_draws (s : State) (on : Bit) : (s.setBl on).draws = s.draws := rfl
@[simp] theorem State.setBl_transactions (s : State) (on : Bit) : (s.setBl on).transactions = s.transactions := rfl
@[simp] theorem State.setBl_responses (s : State) (on : Bit) : (s.setBl on).responses = s.responses := rfl
@[simp] theorem State.setBl_len (s : State) (on : Bit) : (s.setBl on).len = s.len := rfl

@[simp] theorem State.setRow_cfg (s : State) (i : BitVec 3) (bm : Byte) : (s.setRow i bm).cfg = s.cfg := rfl
@[simp] theorem State.setRow_bl (s : State) (i : BitVec 3) (bm : Byte) : (s.setRow i bm).bl = s.bl := rfl
@[simp] theorem State.setRow_buf (s : State) (i : BitVec 3) (bm : Byte) : (s.setRow i bm).buf = s.buf := rfl
@[simp] theorem State.setRow_row (s : State) (i : BitVec 3) (bm : Byte) : (s.setRow i bm).row = s.row.set i.toNat bm i.isLt := rfl
@[simp] theorem State.setRow_status (s : State) (i : BitVec 3) (bm : Byte) : (s.setRow i bm).status = s.status := rfl
@[simp] theorem State.setRow_fsm (s : State) (i : BitVec 3) (bm : Byte) : (s.setRow i bm).fsm = s.fsm := rfl
@[simp] theorem State.setRow_ctx (s : State) (i : BitVec 3) (bm : Byte) : (s.setRow i bm).ctx = s.ctx := rfl
@[simp] theorem State.setRow_stepReg (s : State) (i : BitVec 3) (bm : Byte) : (s.setRow i bm).stepReg = s.stepReg := rfl
@[simp] theorem State.setRow_wcnt (s : State) (i : BitVec 3) (bm : Byte) : (s.setRow i bm).wcnt = s.wcnt := rfl
@[simp] theorem State.setRow_rspValid (s : State) (i : BitVec 3) (bm : Byte) : (s.setRow i bm).rspValid = s.rspValid := rfl
@[simp] theorem State.setRow_inputs (s : State) (i : BitVec 3) (bm : Byte) : (s.setRow i bm).inputs = s.inputs := rfl
@[simp] theorem State.setRow_draws (s : State) (i : BitVec 3) (bm : Byte) : (s.setRow i bm).draws = s.draws := rfl
@[simp] theorem State.setRow_transactions (s : State) (i : BitVec 3) (bm : Byte) : (s.setRow i bm).transactions = s.transactions := rfl
@[simp] theorem State.setRow_responses (s : State) (i : BitVec 3) (bm : Byte) : (s.setRow i bm).responses = s.responses := rfl
@[simp] theorem State.setRow_len (s : State) (i : BitVec 3) (bm : Byte) : (s.setRow i bm).len = s.len := rfl

@[simp] theorem State.setStep_cfg (s : State) (k : Fin 8) : (s.setStep k).cfg = s.cfg := rfl
@[simp] theorem State.setStep_bl (s : State) (k : Fin 8) : (s.setStep k).bl = s.bl := rfl
@[simp] theorem State.setStep_buf (s : State) (k : Fin 8) : (s.setStep k).buf = s.buf := rfl
@[simp] theorem State.setStep_row (s : State) (k : Fin 8) : (s.setStep k).row = s.row := rfl
@[simp] theorem State.setStep_status (s : State) (k : Fin 8) : (s.setStep k).status = s.status := rfl
@[simp] theorem State.setStep_fsm (s : State) (k : Fin 8) : (s.setStep k).fsm = s.fsm := rfl
@[simp] theorem State.setStep_ctx (s : State) (k : Fin 8) : (s.setStep k).ctx = s.ctx := rfl
@[simp] theorem State.setStep_stepReg (s : State) (k : Fin 8) : (s.setStep k).stepReg = k := rfl
@[simp] theorem State.setStep_wcnt (s : State) (k : Fin 8) : (s.setStep k).wcnt = s.wcnt := rfl
@[simp] theorem State.setStep_rspValid (s : State) (k : Fin 8) : (s.setStep k).rspValid = s.rspValid := rfl
@[simp] theorem State.setStep_inputs (s : State) (k : Fin 8) : (s.setStep k).inputs = s.inputs := rfl
@[simp] theorem State.setStep_draws (s : State) (k : Fin 8) : (s.setStep k).draws = s.draws := rfl
@[simp] theorem State.setStep_transactions (s : State) (k : Fin 8) : (s.setStep k).transactions = s.transactions := rfl
@[simp] theorem State.setStep_responses (s : State) (k : Fin 8) : (s.setStep k).responses = s.responses := rfl
@[simp] theorem State.setStep_len (s : State) (k : Fin 8) : (s.setStep k).len = s.len := rfl

@[simp] theorem State.transact_cfg (s : State) (c : Ctx) : (s.transact c).cfg = s.cfg := rfl
@[simp] theorem State.transact_bl (s : State) (c : Ctx) : (s.transact c).bl = s.bl := rfl
@[simp] theorem State.transact_buf (s : State) (c : Ctx) : (s.transact c).buf = s.buf := rfl
@[simp] theorem State.transact_row (s : State) (c : Ctx) : (s.transact c).row = s.row := rfl
@[simp] theorem State.transact_status (s : State) (c : Ctx) : (s.transact c).status = s.status := rfl
@[simp] theorem State.transact_fsm (s : State) (c : Ctx) : (s.transact c).fsm = .xfer := rfl
@[simp] theorem State.transact_ctx (s : State) (c : Ctx) : (s.transact c).ctx = c := rfl
@[simp] theorem State.transact_stepReg (s : State) (c : Ctx) : (s.transact c).stepReg = s.stepReg := rfl
@[simp] theorem State.transact_wcnt (s : State) (c : Ctx) : (s.transact c).wcnt = s.wcnt := rfl
@[simp] theorem State.transact_rspValid (s : State) (c : Ctx) : (s.transact c).rspValid = s.rspValid := rfl
@[simp] theorem State.transact_inputs (s : State) (c : Ctx) : (s.transact c).inputs = s.inputs := rfl
@[simp] theorem State.transact_draws (s : State) (c : Ctx) : (s.transact c).draws = s.draws := rfl
@[simp] theorem State.transact_transactions (s : State) (c : Ctx) : (s.transact c).transactions = s.transactions := rfl
@[simp] theorem State.transact_responses (s : State) (c : Ctx) : (s.transact c).responses = s.responses := rfl
@[simp] theorem State.transact_len (s : State) (c : Ctx) : (s.transact c).len = s.len := rfl

@[simp] theorem State.recordTransaction_cfg (s : State) (n : Nat) : (s.recordTransaction n).cfg = s.cfg := rfl
@[simp] theorem State.recordTransaction_bl (s : State) (n : Nat) : (s.recordTransaction n).bl = s.bl := rfl
@[simp] theorem State.recordTransaction_buf (s : State) (n : Nat) : (s.recordTransaction n).buf = s.buf := rfl
@[simp] theorem State.recordTransaction_row (s : State) (n : Nat) : (s.recordTransaction n).row = s.row := rfl
@[simp] theorem State.recordTransaction_status (s : State) (n : Nat) : (s.recordTransaction n).status = s.status := rfl
@[simp] theorem State.recordTransaction_fsm (s : State) (n : Nat) : (s.recordTransaction n).fsm = s.fsm := rfl
@[simp] theorem State.recordTransaction_ctx (s : State) (n : Nat) : (s.recordTransaction n).ctx = s.ctx := rfl
@[simp] theorem State.recordTransaction_stepReg (s : State) (n : Nat) : (s.recordTransaction n).stepReg = s.stepReg := rfl
@[simp] theorem State.recordTransaction_wcnt (s : State) (n : Nat) : (s.recordTransaction n).wcnt = s.wcnt := rfl
@[simp] theorem State.recordTransaction_rspValid (s : State) (n : Nat) : (s.recordTransaction n).rspValid = s.rspValid := rfl
@[simp] theorem State.recordTransaction_inputs (s : State) (n : Nat) : (s.recordTransaction n).inputs = s.inputs := rfl
@[simp] theorem State.recordTransaction_draws (s : State) (n : Nat) : (s.recordTransaction n).draws = s.draws := rfl
@[simp] theorem State.recordTransaction_transactions (s : State) (n : Nat) : (s.recordTransaction n).transactions = s.transactions ++ [⟨s.buf, n⟩] := rfl
@[simp] theorem State.recordTransaction_responses (s : State) (n : Nat) : (s.recordTransaction n).responses = s.responses := rfl
@[simp] theorem State.recordTransaction_len (s : State) (n : Nat) : (s.recordTransaction n).len = s.len := rfl

@[simp] theorem State.startWait_cfg (s : State) (t : Nat) : (s.startWait t).cfg = s.cfg := rfl
@[simp] theorem State.startWait_bl (s : State) (t : Nat) : (s.startWait t).bl = s.bl := rfl
@[simp] theorem State.startWait_buf (s : State) (t : Nat) : (s.startWait t).buf = s.buf := rfl
@[simp] theorem State.startWait_row (s : State) (t : Nat) : (s.startWait t).row = s.row := rfl
@[simp] theorem State.startWait_status (s : State) (t : Nat) : (s.startWait t).status = s.status := rfl
@[simp] theorem State.startWait_fsm (s : State) (t : Nat) : (s.startWait t).fsm = .wait := rfl
@[simp] theorem State.startWait_ctx (s : State) (t : Nat) : (s.startWait t).ctx = s.ctx := rfl
@[simp] theorem State.startWait_stepReg (s : State) (t : Nat) : (s.startWait t).stepReg = s.stepReg := rfl
@[simp] theorem State.startWait_wcnt (s : State) (t : Nat) : (s.startWait t).wcnt = waitCycles s.cfg t := rfl
@[simp] theorem State.startWait_rspValid (s : State) (t : Nat) : (s.startWait t).rspValid = s.rspValid := rfl
@[simp] theorem State.startWait_inputs (s : State) (t : Nat) : (s.startWait t).inputs = s.inputs := rfl
@[simp] theorem State.startWait_draws (s : State) (t : Nat) : (s.startWait t).draws = s.draws := rfl
@[simp] theorem State.startWait_transactions (s : State) (t : Nat) : (s.startWait t).transactions = s.transactions := rfl
@[simp] theorem State.startWait_responses (s : State) (t : Nat) : (s.startWait t).responses = s.responses := rfl
@[simp] theorem State.startWait_len (s : State) (t : Nat) : (s.startWait t).len = s.len := rfl

@[simp] theorem State.setWcnt_cfg (s : State) (n : Nat) : (s.setWcnt n).cfg = s.cfg := rfl
@[simp] theorem State.setWcnt_bl (s : State) (n : Nat) : (s.setWcnt n).bl = s.bl := rfl
@[simp] theorem State.setWcnt_buf (s : State) (n : Nat) : (s.setWcnt n).buf = s.buf := rfl
@[simp] theorem State.setWcnt_row (s : State) (n : Nat) : (s.setWcnt n).row = s.row := rfl
@[simp] theorem State.setWcnt_status (s : State) (n : Nat) : (s.setWcnt n).status = s.status := rfl
@[simp] theorem State.setWcnt_fsm (s : State) (n : Nat) : (s.setWcnt n).fsm = s.fsm := rfl
@[simp] theorem State.setWcnt_ctx (s : State) (n : Nat) : (s.setWcnt n).ctx = s.ctx := rfl
@[simp] theorem State.setWcnt_stepReg (s : State) (n : Nat) : (s.setWcnt n).stepReg = s.stepReg := rfl
@[simp] theorem State.setWcnt_wcnt (s : State) (n : Nat) : (s.setWcnt n).wcnt = n := rfl
@[simp] theorem State.setWcnt_rspValid (s : State) (n : Nat) : (s.setWcnt n).rspValid = s.rspValid := rfl
@[simp] theorem State.setWcnt_inputs (s : State) (n : Nat) : (s.setWcnt n).inputs = s.inputs := rfl
@[simp] theorem State.setWcnt_draws (s : State) (n : Nat) : (s.setWcnt n).draws = s.draws := rfl
@[simp] theorem State.setWcnt_transactions (s : State) (n : Nat) : (s.setWcnt n).transactions = s.transactions := rfl
@[simp] theorem State.setWcnt_responses (s : State) (n : Nat) : (s.setWcnt n).responses = s.responses := rfl
@[simp] theorem State.setWcnt_len (s : State) (n : Nat) : (s.setWcnt n).len = s.len := rfl

@[simp] theorem State.tickWait_cfg (s : State) : s.tickWait.cfg = s.cfg := rfl
@[simp] theorem State.tickWait_bl (s : State) : s.tickWait.bl = s.bl := rfl
@[simp] theorem State.tickWait_buf (s : State) : s.tickWait.buf = s.buf := rfl
@[simp] theorem State.tickWait_row (s : State) : s.tickWait.row = s.row := rfl
@[simp] theorem State.tickWait_status (s : State) : s.tickWait.status = s.status := rfl
@[simp] theorem State.tickWait_fsm (s : State) : s.tickWait.fsm = s.fsm := rfl
@[simp] theorem State.tickWait_ctx (s : State) : s.tickWait.ctx = s.ctx := rfl
@[simp] theorem State.tickWait_stepReg (s : State) : s.tickWait.stepReg = s.stepReg := rfl
@[simp] theorem State.tickWait_wcnt (s : State) : s.tickWait.wcnt = s.wcnt - 1 := rfl
@[simp] theorem State.tickWait_rspValid (s : State) : s.tickWait.rspValid = s.rspValid := rfl
@[simp] theorem State.tickWait_inputs (s : State) : s.tickWait.inputs = s.inputs := rfl
@[simp] theorem State.tickWait_draws (s : State) : s.tickWait.draws = s.draws := rfl
@[simp] theorem State.tickWait_transactions (s : State) : s.tickWait.transactions = s.transactions := rfl
@[simp] theorem State.tickWait_responses (s : State) : s.tickWait.responses = s.responses := rfl
@[simp] theorem State.tickWait_len (s : State) : s.tickWait.len = s.len := rfl

@[simp] theorem State.withFetchWord_cfg (s : State) (n w : Nat) : (s.withFetchWord n w).cfg = s.cfg := rfl
@[simp] theorem State.withFetchWord_bl (s : State) (n w : Nat) : (s.withFetchWord n w).bl = s.bl := rfl
@[simp] theorem State.withFetchWord_buf (s : State) (n w : Nat) : (s.withFetchWord n w).buf = s.buf := rfl
@[simp] theorem State.withFetchWord_row (s : State) (n w : Nat) : (s.withFetchWord n w).row = s.row := rfl
@[simp] theorem State.withFetchWord_status (s : State) (n w : Nat) : (s.withFetchWord n w).status = s.status := rfl
@[simp] theorem State.withFetchWord_fsm (s : State) (n w : Nat) : (s.withFetchWord n w).fsm = .idle := rfl
@[simp] theorem State.withFetchWord_ctx (s : State) (n w : Nat) : (s.withFetchWord n w).ctx = s.ctx := rfl
@[simp] theorem State.withFetchWord_stepReg (s : State) (n w : Nat) : (s.withFetchWord n w).stepReg = s.stepReg := rfl
@[simp] theorem State.withFetchWord_wcnt (s : State) (n w : Nat) : (s.withFetchWord n w).wcnt = s.wcnt := rfl
@[simp] theorem State.withFetchWord_rspValid (s : State) (n w : Nat) : (s.withFetchWord n w).rspValid = s.rspValid := rfl
@[simp] theorem State.withFetchWord_inputs (s : State) (n w : Nat) : (s.withFetchWord n w).inputs = commandPins (BitVec.ofNat 16 (w % 2 ^ n)) :: s.inputs := rfl
@[simp] theorem State.withFetchWord_draws (s : State) (n w : Nat) : (s.withFetchWord n w).draws = s.draws := rfl
@[simp] theorem State.withFetchWord_transactions (s : State) (n w : Nat) : (s.withFetchWord n w).transactions = s.transactions := rfl
@[simp] theorem State.withFetchWord_responses (s : State) (n w : Nat) : (s.withFetchWord n w).responses = s.responses := rfl
@[simp] theorem State.withFetchWord_len (s : State) (n w : Nat) : (s.withFetchWord n w).len = s.len := rfl

/-- The pins of a state with a word to fetch present that word. -/
@[simp] theorem State.withFetchWord_pins (s : State) (n w : Nat) :
    (s.withFetchWord n w).pins = commandPins (BitVec.ofNat 16 (w % 2 ^ n)) := rfl

end Sys2Proof.Machine
end

