-- ==== Sys2Proof/Laws/Ops.lean ====
section
/-! SUPPORT. What each shared operation can do, said once (20_memory.md R52, R56; 43_init_fsm.md R163). -/

namespace Sys2Proof.Machine

open Sys2Proof

/-- What the LNE samples is what the port can carry (R35). -/
theorem State.busCount_lt (s : State) : PortCount s.cfg s.busCount := Nat.mod_lt _ (Nat.two_pow_pos _)

/-- A count the port can carry is sampled as it is. -/
theorem State.busCount_of_carried {s : State} {n : Nat} (h : s.pins.busCount = n) (hn : PortCount s.cfg n) : s.busCount = n := by
  rw [State.busCount, h, Nat.mod_eq_of_lt hn]

theorem State.busRdIdx_lt (s : State) : s.busRdIdx < 2 ^ s.cfg.lenW := Nat.mod_lt _ (Nat.two_pow_pos _)

theorem append_fits {q : List Byte} {s : State} (h : s.len + q.length ≤ s.cfg.bufDepth) : append q s = .ok (s.pushBytes q) := by
  simp [append, overflows, Nat.not_lt.mpr h]

theorem append_overflow {q : List Byte} {s : State} (h : s.cfg.bufDepth < s.len + q.length) : append q s = .error s := by
  simp [append, overflows, h]

/-- Several appends that fit together are one append of their concatenation. -/
theorem appendAll_fits : ∀ (qs : List (List Byte)) (s : State), s.len + qs.flatten.length ≤ s.cfg.bufDepth →
    appendAll qs s = .ok (s.pushBytes qs.flatten)
  | [], s, _ => by simp [appendAll, State.pushBytes]
  | q :: qs, s, h => by
    rw [List.flatten_cons, List.length_append] at h
    have h1 : s.len + q.length ≤ s.cfg.bufDepth := by omega
    rw [appendAll, append_fits h1]
    show appendAll qs (s.pushBytes q) = _
    rw [appendAll_fits qs (s.pushBytes q) (by simp only [State.pushBytes_len, State.pushBytes_cfg]; omega)]
    simp [State.pushBytes]

/-- All that several appends can do: each outcome is the state with some bytes pushed that fit. -/
theorem appendAll_cases : ∀ (qs : List (List Byte)) (s : State), s.len ≤ s.cfg.bufDepth →
    (appendAll qs s = .ok (s.pushBytes qs.flatten) ∧ s.len + qs.flatten.length ≤ s.cfg.bufDepth) ∨
    (∃ q1 q2, qs = q1 ++ q2 ∧ s.len + q1.flatten.length ≤ s.cfg.bufDepth ∧
      s.cfg.bufDepth < s.len + qs.flatten.length ∧ appendAll qs s = .error (s.pushBytes q1.flatten))
  | [], s, hs => .inl ⟨by simp [appendAll, State.pushBytes], by simpa using hs⟩
  | q :: qs, s, hs => by
    rcases Nat.lt_or_ge s.cfg.bufDepth (s.len + q.length) with h | h
    · refine .inr ⟨[], q :: qs, rfl, by simpa using hs, ?_, ?_⟩
      · rw [List.flatten_cons, List.length_append]; omega
      · rw [appendAll, append_overflow h]; simp [State.pushBytes]
    · have ih := appendAll_cases qs (s.pushBytes q) (by simpa using h)
      rw [appendAll, append_fits h]
      rcases ih with ⟨e, hl⟩ | ⟨q1, q2, e1, hl, ho, e⟩
      · left
        constructor
        · show appendAll qs (s.pushBytes q) = _
          rw [e]; simp [State.pushBytes]
        · simp at hl ⊢; omega
      · right
        refine ⟨q :: q1, q2, by simp [e1], ?_, ?_, ?_⟩
        · simp at hl ⊢; omega
        · simp at ho ⊢; omega
        · show appendAll qs (s.pushBytes q) = _
          rw [e]; simp [State.pushBytes]

/-- All that an appending command can do. -/
theorem appendCommand_cases (q : List Byte) (s : State) :
    (s.len + q.length ≤ s.cfg.bufDepth ∧ appendCommand q s = .next ((s.pushBytes q).finish .ok)) ∨
    (s.cfg.bufDepth < s.len + q.length ∧ appendCommand q s = .next (s.finish .overflow)) := by
  rcases Nat.lt_or_ge s.cfg.bufDepth (s.len + q.length) with h | h
  · exact .inr ⟨h, by simp [appendCommand, append_overflow h]⟩
  · exact .inl ⟨h, by simp [appendCommand, append_fits h]⟩

/-- A command whose bytes fit in the empty buffer sends them as one transaction. -/
theorem sendCommand_fits {qs : List (List Byte)} {s : State} (c : Ctx) (h : qs.flatten.length ≤ s.cfg.bufDepth) :
    sendCommand qs c s = .next ((s.clearBuf.pushBytes qs.flatten).transact c) := by
  rw [sendCommand, appendAll_fits qs s.clearBuf (by simpa using h)]

/-- All that a sending command can do. -/
theorem sendCommand_cases (qs : List (List Byte)) (c : Ctx) (s : State) :
    (qs.flatten.length ≤ s.cfg.bufDepth ∧ sendCommand qs c s = .next ((s.clearBuf.pushBytes qs.flatten).transact c)) ∨
    (∃ q1 q2, qs = q1 ++ q2 ∧ q1.flatten.length ≤ s.cfg.bufDepth ∧ s.cfg.bufDepth < qs.flatten.length ∧
      sendCommand qs c s = .next ((s.clearBuf.pushBytes q1.flatten).finish .overflow)) := by
  rcases appendAll_cases qs s.clearBuf (by simp) with ⟨e, hl⟩ | ⟨q1, q2, e1, hl, ho, e⟩
  · exact .inl ⟨by simpa using hl, by rw [sendCommand, e]⟩
  · exact .inr ⟨q1, q2, e1, by simpa using hl, by simpa using ho, by rw [sendCommand, e]; rfl⟩

/-- All that the completion of a transaction can do (R56). -/
theorem completeTransaction_cases (n : Nat) (s : State) :
    (n < s.len ∧ completeTransaction n s = .next ((s.recordTransaction n).finish .xferFail)) ∨
    (s.len ≤ n ∧ s.ctx = .user ∧ completeTransaction n s = .next ((s.recordTransaction n).finish .ok)) ∨
    (s.len ≤ n ∧ s.ctx = .slow ∧ completeTransaction n s = .next ((s.recordTransaction n).startWait s.cfg.tSlow)) ∨
    (s.len ≤ n ∧ s.ctx = .init ∧
      completeTransaction n s = .next ((s.recordTransaction n).startWait (tInit s.cfg s.stepReg))) := by
  rcases Nat.lt_or_ge n s.len with h | h
  · exact .inl ⟨h, by simp [completeTransaction, shortTransfer, h]⟩
  · right
    cases hc : s.ctx with
    | user => exact .inl ⟨h, rfl, by simp [completeTransaction, shortTransfer, Nat.not_lt.mpr h, hc]⟩
    | slow => exact .inr (.inl ⟨h, rfl, by simp [completeTransaction, shortTransfer, Nat.not_lt.mpr h, hc]⟩)
    | init => exact .inr (.inr ⟨h, rfl, by simp [completeTransaction, shortTransfer, Nat.not_lt.mpr h, hc]⟩)

theorem ClkHz.freq_pos {c : Config.ClkHz} (h : c ≠ .hz 0) : 0 < c.freq := by
  cases c with
  | unnamed => simp [Config.ClkHz.freq]
  | hz n => simp [Config.ClkHz.freq] at h ⊢; omega

/-- The number of edges of a wait is at least one (R163). -/
theorem waitCycles_pos {p : Config.Params} {t : Nat} (hp : p.clkHz ≠ .hz 0) (ht : 0 < t) : 0 < waitCycles p t := by
  have h := Nat.mul_pos ht (ClkHz.freq_pos hp)
  unfold waitCycles
  split <;> omega

theorem tInitMin_pos : ∀ j : Fin 7, 0 < Config.tInitMin[j] := by decide

theorem tInit_pos {p : Config.Params} (hp : p.Legal) (k : Fin 8) : 0 < tInit p k := by
  obtain ⟨-, -, -, -, -, -, -, h, h7, ht⟩ := hp
  unfold tInit
  induction k using Fin.lastCases with
  | last => exact Nat.lt_of_lt_of_le ht h7
  | cast j => exact Nat.lt_of_lt_of_le (tInitMin_pos j) (h j)

end Sys2Proof.Machine
end

