-- ==== Sys2Proof/Laws/Exec.lean ====
section
/-! SUPPORT. What a command can do, said once for all commands: `exec_effect` gives, for every command and state, the next state in one
of eight shapes, and `initStep_effect` the same for a later step of INIT. Statements about all commands follow from the shapes. -/

namespace Sys2Proof.Machine

open Sys2Proof

/-- A sequence composed with backlight `bl`: every byte carries it, is in write mode, and the whole is in handshake shape. -/
structure Composed (bl : Bit) (q : List Byte) : Prop where
  carries : CarriesBacklight bl q
  writeMode : WriteMode q
  shape : handshake q = true

theorem composed_nibblePair (bl rs : Bit) (n : Nibble) : Composed bl (nibblePair bl rs n) :=
  ⟨nibblePair_carries bl rs n, nibblePair_writeMode bl rs n, nibblePair_handshake bl rs n⟩

theorem composed_encodeByte (bl rs : Bit) (v : Byte) (h : Bit) : Composed bl (encodeByte bl rs v h) :=
  ⟨encodeByte_carries bl rs v h, encodeByte_writeMode bl rs v h, encodeByte_handshake bl rs v h⟩

theorem composed_initBytes (p : Config.Params) (bl : Bit) (k : Fin 8) : Composed bl (initBytes p bl k) :=
  composed_encodeByte ..

theorem initBytes_ne_nil (p : Config.Params) (bl : Bit) (k : Fin 8) : initBytes p bl k ≠ [] :=
  encodeByte_ne_nil bl 0 (initCmd p k) (initH k)

theorem initBytes_length_le (p : Config.Params) (bl : Bit) (k : Fin 8) : (initBytes p bl k).length ≤ 4 :=
  encodeByte_length_le ..

theorem composed_setl (on : Bit) : Composed on [ebyte 0 0 on 0] :=
  ⟨by simp [CarriesBacklight], by simp [WriteMode], by revert on; decide⟩

theorem composed_flatten {bl : Bit} {qs : List (List Byte)} (h : ∀ q ∈ qs, Composed bl q) : Composed bl qs.flatten where
  carries b hb := by
    obtain ⟨q, hq, hbq⟩ := List.mem_flatten.mp hb
    exact (h q hq).carries b hbq
  writeMode b hb := by
    obtain ⟨q, hq, hbq⟩ := List.mem_flatten.mp hb
    exact (h q hq).writeMode b hbq
  shape := handshake_flatten qs fun q hq => (h q hq).shape

/-- The shapes of a command's next state. In `send` and `part`, `s'` is `s`, or `s` with BL or STEP written before the buffer is. `part`
needs a buffer too small for the command, which R11 rules out. -/
inductive Effect (s : State) : State → Prop where
  | finish (st : Status) : Effect s (s.finish st)
  | clear : Effect s (s.clearBuf.finish .ok)
  | push (q : List Byte) (hq : Composed s.bl q) (fits : s.len + q.length ≤ s.cfg.bufDepth) : Effect s ((s.pushBytes q).finish .ok)
  | flush (some : s.buf ≠ []) : Effect s (s.transact .user)
  | light (on : Bit) (local_ : s.cfg.setlightEmits = false) : Effect s ((s.setBl on).finish .ok)
  | row (i : BitVec 3) (bm : Byte) : Effect s ((s.setRow i bm).finish .ok)
  | send (s' : State) (before : s' = s ∨ (∃ on, s' = s.setBl on) ∨ ∃ k, s' = s.setStep k) (q : List Byte) (c : Ctx)
      (hq : Composed s'.bl q) (some : q ≠ []) (fits : q.length ≤ s.cfg.bufDepth)
      (hi : c = .init → q = initBytes s'.cfg s'.bl s'.stepReg)
      (hs : c = .slow → ∃ v ∈ s'.cfg.slowCmds, q = encodeByte s'.bl 0 v 0) :
      Effect s ((s'.clearBuf.pushBytes q).transact c)
  | part (s' : State) (before : s' = s ∨ (∃ on, s' = s.setBl on) ∨ ∃ k, s' = s.setStep k) (q : List Byte)
      (hq : Composed s'.bl q) (fits : q.length ≤ s.cfg.bufDepth) (small : s.cfg.bufDepth < 44) :
      Effect s ((s'.clearBuf.pushBytes q).finish .overflow)

theorem appendCommand_effect {q : List Byte} {s : State} (hq : Composed s.bl q) :
    ∃ t, appendCommand q s = .next t ∧ Effect s t := by
  rcases appendCommand_cases q s with ⟨h, e⟩ | ⟨-, e⟩
  · exact ⟨_, e, .push q hq h⟩
  · exact ⟨_, e, .finish .overflow⟩

theorem sendCommand_effect {s s' : State} (before : s' = s ∨ (∃ on, s' = s.setBl on) ∨ ∃ k, s' = s.setStep k)
    {qs : List (List Byte)} {c : Ctx} (hq : ∀ q ∈ qs, Composed s'.bl q) (some : qs.flatten ≠ []) (short : qs.flatten.length ≤ 44)
    (hi : c = .init → qs.flatten = initBytes s'.cfg s'.bl s'.stepReg)
    (hs : c = .slow → ∃ v ∈ s'.cfg.slowCmds, qs.flatten = encodeByte s'.bl 0 v 0) :
    ∃ t, sendCommand qs c s' = .next t ∧ Effect s t := by
  have hcfg : s'.cfg = s.cfg := by rcases before with rfl | ⟨_, rfl⟩ | ⟨_, rfl⟩ <;> rfl
  rcases sendCommand_cases qs c s' with ⟨h, e⟩ | ⟨q1, q2, rfl, hf, hsmall, e⟩
  · exact ⟨_, e, .send s' before _ c (composed_flatten hq) some (hcfg ▸ h) hi hs⟩
  · exact ⟨_, e, .part s' before _ (composed_flatten fun q h => hq q (by simp [h])) (hcfg ▸ hf) (by rw [hcfg] at hsmall; omega)⟩

/-- One sequence sent from the state itself. -/
theorem sendOne_effect {s : State} {q : List Byte} {c : Ctx} (hq : Composed s.bl q) (some : q ≠ []) (short : q.length ≤ 44)
    (hi : c ≠ .init) (hs : c = .slow → ∃ v ∈ s.cfg.slowCmds, q = encodeByte s.bl 0 v 0) :
    ∃ t, sendCommand [q] c s = .next t ∧ Effect s t :=
  sendCommand_effect (.inl rfl) (by simpa using hq) (by simpa using some) (by simpa using short) (fun h => absurd h hi)
    (by simpa using hs)

theorem write_effect (rs h : Bit) (v : Byte) (s : State) : ∃ t, write rs h v s = .next t ∧ Effect s t := by
  refine sendOne_effect (composed_encodeByte ..) (encodeByte_ne_nil _ _ _ _)
    (Nat.le_trans (encodeByte_length_le ..) (by omega)) ?_ ?_
  · unfold writeCtx; split <;> simp
  · unfold writeCtx
    split
    · rename_i hh; exact fun _ => ⟨v, hh.2.2, by rw [hh.1, hh.2.1]⟩
    · simp

/-- A step of INIT from a state whose STEP has been written. -/
theorem initStep_effect (s : State) (k : Fin 8) : ∃ t, initStep (s.setStep k) = .next t ∧ Effect s t :=
  sendCommand_effect (.inr (.inr ⟨k, rfl⟩)) (by simpa using composed_initBytes s.cfg s.bl k)
    (by simpa using initBytes_ne_nil s.cfg s.bl k) (by simpa using Nat.le_trans (initBytes_length_le s.cfg s.bl k) (by omega))
    (by simp) (by simp)

/-- A DEFCHAR's sequences are composed with BL, and are 44 bytes together where CG_ROWS is 8 (R183). -/
theorem defcharSeqs_composed (s : State) (slot : BitVec 4) : ∀ q ∈ defcharSeqs s slot, Composed s.bl q := by
  intro q hq
  simp only [defcharSeqs, List.mem_append, List.mem_cons, List.mem_map, List.not_mem_nil, or_false] at hq
  rcases hq with ((rfl | rfl) | ⟨r, -, rfl⟩) | rfl <;> exact composed_encodeByte ..

theorem flatten_map_encode_length (bl rs : Bit) (f : Byte → Byte) (l : List Byte) :
    (l.map fun r => encodeByte bl rs (f r) 0).flatten.length = 4 * l.length := by
  induction l with
  | nil => rfl
  | cons a l ih => rw [List.map_cons, List.flatten_cons, List.length_append, ih, encodeByte_length_full, List.length_cons]; omega

theorem defcharSeqs_length (s : State) (slot : BitVec 4) : (defcharSeqs s slot).flatten.length = 12 + 4 * min s.cfg.cgRows 8 := by
  have h : s.row.toList.length = 8 := s.row.length_toList
  simp only [defcharSeqs, List.flatten_append, List.length_append, flatten_map_encode_length, List.length_take, h, List.flatten_cons,
    List.flatten_nil, encodeByte_length_full, List.length_nil]
  omega

/-- Every command takes a next state, in one of the shapes. -/
theorem exec_effect (i : Instr) (s : State) : ∃ t, exec i s = .next t ∧ Effect s t := by
  cases i with
  | nop => exact ⟨_, rfl, .finish .ok⟩
  | clrbuf => exact ⟨_, rfl, .clear⟩
  | nibC n => exact appendCommand_effect (composed_nibblePair ..)
  | nibD n => exact appendCommand_effect (composed_nibblePair ..)
  | putC v => exact appendCommand_effect (composed_encodeByte ..)
  | putD v => exact appendCommand_effect (composed_encodeByte ..)
  | putCH v => exact appendCommand_effect (composed_encodeByte ..)
  | flush =>
    by_cases h : s.len = 0
    · exact ⟨s.finish .ok, by simp [exec, execFlush, h], .finish .ok⟩
    · exact ⟨s.transact .user, by simp [exec, execFlush, h], .flush fun e => h (by simp [State.len, e])⟩
  | writeC v => exact write_effect ..
  | writeD v => exact write_effect ..
  | writeCH v => exact write_effect ..
  | setl on =>
    cases h : s.cfg.setlightEmits with
    | true =>
      have e : exec (.setl on) s = sendCommand [[ebyte 0 0 on 0]] .user (s.setBl on) := by simp [exec, execSetl, h]
      rw [e]
      exact sendCommand_effect (.inr (.inl ⟨on, rfl⟩)) (by simpa using composed_setl on) (by simp) (by simp) (by simp) (by simp)
    | false => exact ⟨(s.setBl on).finish .ok, by simp [exec, execSetl, h], .light on h⟩
  | goto line col =>
    by_cases h : badPosition s.cfg line col = true
    · exact ⟨s.finish .badPos, by simp [exec, execGoto, h], .finish .badPos⟩
    · have e : exec (.goto line col) s = sendCommand [encodeByte s.bl 0 (lineBase s.cfg line + col) 0] .user s := by
        simp [exec, execGoto, h]
      rw [e]
      exact sendOne_effect (composed_encodeByte ..) (encodeByte_ne_nil _ _ _ _)
        (Nat.le_trans (encodeByte_length_le ..) (by omega)) (by simp) (by simp)
  | ldrow idx bm => exact ⟨_, rfl, .row idx bm⟩
  | defchar slot =>
    by_cases h : badSlot s.cfg slot = true
    · exact ⟨s.finish .badSlot, by simp [exec, execDefchar, h], .finish .badSlot⟩
    · have e : exec (.defchar slot) s = sendCommand (defcharSeqs s slot) .user s := by simp [exec, execDefchar, h]
      rw [e]
      exact sendCommand_effect (.inl rfl) (defcharSeqs_composed s slot)
        (fun h => by have := defcharSeqs_length s slot; rw [h] at this; simp at this; omega)
        (by rw [defcharSeqs_length]; omega) (by simp) (by simp)
  | init => exact initStep_effect s 0

/-- A command never touches the configuration. -/
theorem Effect.cfg_eq {s t : State} (h : Effect s t) : t.cfg = s.cfg := by
  cases h with
  | send s' before | part s' before => rcases before with rfl | ⟨_, rfl⟩ | ⟨_, rfl⟩ <;> rfl
  | _ => rfl

end Sys2Proof.Machine
end

