-- ==== Sys2Proof/Laws/PerInstr.lean ====
section
/-! SUPPORT. Lemmas said once per command, about the command as syntax. -/

namespace Sys2Proof.Laws.OpcodeField

open Sys2Proof

/-- The opcode of a command (R72). -/
def opcode : Instr → BitVec 4
  | .nop => 0x0
  | .clrbuf => 0x1
  | .nibC _ | .nibD _ => 0x2
  | .putC _ | .putD _ | .putCH _ => 0x3
  | .flush => 0x4
  | .writeC _ | .writeD _ | .writeCH _ => 0x5
  | .setl _ => 0x6
  | .goto _ _ => 0x7
  | .ldrow _ _ => 0x8
  | .defchar _ => 0x9
  | .init => 0xA

/-- Bits 15-12 of a command's word are its opcode (R70). -/
def Statement (i : Instr) : Prop := (encode i).extractLsb' 12 4 = opcode i

theorem nop : Statement .nop := by unfold Statement; decide
theorem clrbuf : Statement .clrbuf := by unfold Statement; decide
theorem nibC (n : Nibble) : Statement (.nibC n) := by revert n; unfold Statement; decide
theorem nibD (n : Nibble) : Statement (.nibD n) := by revert n; unfold Statement; decide
theorem putC (v : Byte) : Statement (.putC v) := by revert v; unfold Statement; decide
theorem putD (v : Byte) : Statement (.putD v) := by revert v; unfold Statement; decide
theorem putCH (v : Byte) : Statement (.putCH v) := by revert v; unfold Statement; decide
theorem flush : Statement .flush := by unfold Statement; decide
theorem writeC (v : Byte) : Statement (.writeC v) := by revert v; unfold Statement; decide
theorem writeD (v : Byte) : Statement (.writeD v) := by revert v; unfold Statement; decide
theorem writeCH (v : Byte) : Statement (.writeCH v) := by revert v; unfold Statement; decide
theorem setl (on : Bit) : Statement (.setl on) := by revert on; unfold Statement; decide

theorem goto (line : BitVec 4) (col : Byte) : Statement (.goto line col) := by
  unfold Statement
  ext k hk
  interval_cases k <;> simp [encode, opcode]

theorem ldrow (idx : BitVec 3) (bm : Byte) : Statement (.ldrow idx bm) := by
  unfold Statement
  ext k hk
  interval_cases k <;> simp [encode, opcode]

theorem defchar (slot : BitVec 4) : Statement (.defchar slot) := by revert slot; unfold Statement; decide
theorem init : Statement .init := by unfold Statement; decide

end Sys2Proof.Laws.OpcodeField
end

