-- ==== Sys2Proof/Laws/Step.lean ====
section
/-! SUPPORT. What an edge can do, said once: `step_shape` gives the case a next state came from. -/

namespace Sys2Proof.Machine

open Sys2Proof

/-- The cases of an edge (10_state.md R37). -/
inductive EdgeShape (s : State) : State → Prop where
  | reset (r : s.pins.rst = true) : EdgeShape s s.beginEdge.resetAction
  | idle (r : s.pins.rst = false) (f : s.fsm = .idle) (v : s.pins.cmdValid = false) : EdgeShape s s.beginEdge
  | illegal (r : s.pins.rst = false) (f : s.fsm = .idle) (v : s.pins.cmdValid = true) (d : decode s.pins.cmdWord = none) :
      EdgeShape s (s.beginEdge.finish .illegal)
  | command (i : Instr) (t : State) (r : s.pins.rst = false) (f : s.fsm = .idle) (v : s.pins.cmdValid = true)
      (d : decode s.pins.cmdWord = some i) (e : exec i s.beginEdge = .next t) : EdgeShape s t
  | request (r : s.pins.rst = false) (f : s.fsm = .xfer) (v : s.pins.busDone = false) : EdgeShape s s.beginEdge
  | short (r : s.pins.rst = false) (f : s.fsm = .xfer) (v : s.pins.busDone = true) (n : s.busCount < s.len) :
      EdgeShape s ((s.beginEdge.recordTransaction s.busCount).finish .xferFail)
  | sent (r : s.pins.rst = false) (f : s.fsm = .xfer) (v : s.pins.busDone = true) (n : s.len ≤ s.busCount)
      (c : s.ctx = .user) : EdgeShape s ((s.beginEdge.recordTransaction s.busCount).finish .ok)
  | sentSlow (r : s.pins.rst = false) (f : s.fsm = .xfer) (v : s.pins.busDone = true) (n : s.len ≤ s.busCount)
      (c : s.ctx = .slow) : EdgeShape s ((s.beginEdge.recordTransaction s.busCount).startWait s.cfg.tSlow)
  | sentInit (r : s.pins.rst = false) (f : s.fsm = .xfer) (v : s.pins.busDone = true) (n : s.len ≤ s.busCount)
      (c : s.ctx = .init) :
      EdgeShape s ((s.beginEdge.recordTransaction s.busCount).startWait (tInit s.cfg s.stepReg))
  | tick (r : s.pins.rst = false) (f : s.fsm = .wait) (w : 1 < s.wcnt) : EdgeShape s s.beginEdge.tickWait
  | waitedSlow (r : s.pins.rst = false) (f : s.fsm = .wait) (w : s.wcnt ≤ 1) (c : s.ctx = .slow) :
      EdgeShape s (s.beginEdge.finish .ok)
  | waitedInit (t : State) (r : s.pins.rst = false) (f : s.fsm = .wait) (w : s.wcnt ≤ 1) (c : s.ctx = .init)
      (k : s.stepReg.val < 7) (e : initStep (s.beginEdge.setStep (s.stepReg + 1)) = .next t) : EdgeShape s t
  | waitedOpen (n : Nat) (r : s.pins.rst = false) (f : s.fsm = .wait) (w : s.wcnt ≤ 1) (c : s.ctx = .user) :
      EdgeShape s (s.beginEdge.setWcnt n)
  | waitedOpenDone (r : s.pins.rst = false) (f : s.fsm = .wait) (w : s.wcnt ≤ 1) (c : s.ctx = .user) :
      EdgeShape s (s.beginEdge.finish .ok)
  | waitedOpenInit (k : Fin 8) (t : State) (r : s.pins.rst = false) (f : s.fsm = .wait) (w : s.wcnt ≤ 1) (c : s.ctx = .user)
      (e : initStep (s.beginEdge.setStep k) = .next t) : EdgeShape s t
  | waitedLast (r : s.pins.rst = false) (f : s.fsm = .wait) (w : s.wcnt ≤ 1) (c : s.ctx = .init) (k : ¬ s.stepReg.val < 7) :
      EdgeShape s (s.beginEdge.finish .ok)

/-- A next state came from one of the cases. -/
theorem step_shape {s t : State} (h : step s = .next t) : EdgeShape s t := by
  unfold step clockEdge at h
  cases hr : s.pins.rst with
  | true =>
    rw [if_pos hr] at h
    cases h; exact .reset hr
  | false =>
    rw [if_neg (by simp [hr])] at h
    cases hf : s.fsm with
    | idle =>
      simp only [hf] at h
      cases hv : s.pins.cmdValid with
      | false => rw [if_neg (by simp [hv])] at h; cases h; exact .idle hr hf hv
      | true =>
        rw [if_pos hv] at h
        unfold acceptWord at h
        cases hd : decode s.pins.cmdWord with
        | none => simp only [hd] at h; cases h; exact .illegal hr hf hv hd
        | some i => simp only [hd] at h; exact .command i t hr hf hv hd h
    | xfer =>
      simp only [hf] at h
      cases hv : s.pins.busDone with
      | false => rw [if_neg (by simp [hv])] at h; cases h; exact .request hr hf hv
      | true =>
        rw [if_pos hv] at h
        rcases completeTransaction_cases s.busCount s.beginEdge with ⟨n, e⟩ | ⟨n, c, e⟩ | ⟨n, c, e⟩ | ⟨n, c, e⟩ <;>
          rw [e] at h <;> cases h
        · exact .short hr hf hv n
        · exact .sent hr hf hv n c
        · exact .sentSlow hr hf hv n c
        · exact .sentInit hr hf hv n c
    | wait =>
      simp only [hf] at h
      unfold waitEdge waitContinuation at h
      by_cases hw : 1 < s.wcnt
      · rw [if_pos (by simpa using hw)] at h; cases h; exact .tick hr hf hw
      · rw [if_neg (by simpa using hw)] at h
        have hw : s.wcnt ≤ 1 := by omega
        cases hc : s.ctx with
        | user =>
          simp only [State.beginEdge_ctx, hc] at h
          unfold openWaitEnd at h
          split at h
          · cases h; exact .waitedOpen _ hr hf hw hc
          · cases h; exact .waitedOpenDone hr hf hw hc
          · exact .waitedOpenInit _ t hr hf hw hc h
        | slow => simp only [State.beginEdge_ctx, hc] at h; cases h; exact .waitedSlow hr hf hw hc
        | init =>
          simp only [State.beginEdge_ctx, hc] at h
          by_cases hk : s.stepReg.val < 7
          · rw [if_pos (by simpa using hk)] at h; exact .waitedInit t hr hf hw hc hk h
          · rw [if_neg (by simpa using hk)] at h; cases h; exact .waitedLast hr hf hw hc hk

/-- The next state of a command, in one of the shapes of `Effect`. -/
theorem effect_of_exec {i : Instr} {s t : State} (h : exec i s = .next t) : Effect s t := by
  obtain ⟨t', e, he⟩ := exec_effect i s
  rw [h] at e; cases e; exact he

/-- The next state of a later INIT step, in one of the shapes of `Effect`. -/
theorem effect_of_initStep {s t : State} {k : Fin 8} (h : initStep (s.setStep k) = .next t) : Effect s t := by
  obtain ⟨t', e, he⟩ := initStep_effect s k
  rw [h] at e; cases e; exact he

end Sys2Proof.Machine
end

