-- ==== Sys2Proof/Laws/Run.lean ====
section
/-! SUPPORT. Runs of several edges, cut into parts. -/

namespace Sys2Proof.Machine

open Sys2Proof

theorem run_one (s : State) : run 1 s = step s := by
  unfold run
  cases step s <;> rfl

/-- A run is its first edge and the rest. -/
theorem run_succ_next {n : Nat} {s t : State} (h : step s = .next t) : run (n + 1) s = run n t := by
  rw [run, h]

/-- A run of m + n edges is a run of m and then one of n. -/
theorem run_add_next : ∀ {m n : Nat} {s t : State}, run m s = .next t → run (m + n) s = run n t
  | 0, n, s, t, h => by
    cases h; rw [Nat.zero_add]
  | m + 1, n, s, t, h => by
    rw [run] at h
    cases e : step s with
    | next u =>
      rw [e] at h
      rw [Nat.add_right_comm, run_succ_next e]
      exact run_add_next h
    | fault r => rw [e] at h; cases h
    | refused r => rw [e] at h; cases h

/-- The pins of the first edges are those of the script. -/
theorem pinsAt_mem {s : State} {ps rest : List Pins} {k : Nat} (h : s.inputs = ps ++ rest) (hk : k < ps.length) : s.pinsAt k ∈ ps := by
  simp [State.pinsAt, h, hk, List.getElem?_append]

/-- What is left of a script. -/
theorem inputs_drop {s : State} {ps rest : List Pins} (h : s.inputs = ps ++ rest) : s.inputs.drop ps.length = rest := by
  simp [h]

@[simp] theorem Offer.pins_length (o : Offer) : o.pins.length = o.gap.length + 1 := rfl

@[simp] theorem Exchange.pins_length (e : Exchange) : e.pins.length = e.held.length + (e.waited.length + 1) := by
  simp [Exchange.pins]

/-- The count of an exchange is the one the LNE samples at its answer. -/
theorem Exchange.count_eq {s : State} {e : Exchange} (h : s.pins = e.answer) : e.count s.cfg = s.busCount := by
  simp [Exchange.count, State.busCount, h]

theorem Exchange.count_carried (e : Exchange) (p : Config.Params) : PortCount p (e.count p) := Nat.mod_lt _ (Nat.two_pow_pos _)

theorem pinsAt_zero (s : State) : s.pinsAt 0 = s.pins := by
  unfold State.pinsAt State.pins
  cases s.inputs <;> rfl

theorem pinsAt_succ (s : State) (k : Nat) : s.pinsAt (k + 1) = s.edge.pinsAt k := by
  unfold State.pinsAt State.edge
  cases s.inputs <;> rfl

end Sys2Proof.Machine
end

