-- ==== Sys2Proof/Tests/Slice0.lean ====
section
/-! SUPPORT. Tests. Expected values are the spec's: the worked words of 30_encoding.md and the vectors of
95_vectors_and_programs.md, each named where it is used. -/

namespace Sys2Proof.Tests

open Sys2Proof Sys2Proof.Machine

/-! ### Well-formedness: a line an assembler refuses, for each check of R80 -/

theorem test_wf_refuses_operand_for_no_operand : (AsmLine.mk .nop [0]).wf = false := by decide
theorem test_wf_refuses_missing_operand : (AsmLine.mk .goto [2]).wf = false := by decide
theorem test_wf_refuses_extra_operand : (AsmLine.mk .setl [1, 1]).wf = false := by decide
theorem test_wf_refuses_nibble_16 : (AsmLine.mk .nibC [16]).wf = false ∧ (AsmLine.mk .nibD [16]).wf = false := by decide
theorem test_wf_refuses_value_256 : [Mnemonic.putC, .putD, .putCH, .writeC, .writeD, .writeCH].all (fun m => !(AsmLine.mk m [256]).wf) = true := by decide
theorem test_wf_refuses_data_high_nibble : (AsmLine.mk .putDH [0x41]).wf = false ∧ (AsmLine.mk .writeDH [0x41]).wf = false := by decide
theorem test_wf_refuses_light_2 : (AsmLine.mk .setl [2]).wf = false := by decide
theorem test_wf_refuses_line_16 : (AsmLine.mk .goto [16, 0]).wf = false := by decide
theorem test_wf_refuses_column_256 : (AsmLine.mk .goto [0, 256]).wf = false := by decide
theorem test_wf_refuses_row_8 : (AsmLine.mk .ldrow [8, 0]).wf = false := by decide
theorem test_wf_refuses_bitmap_256 : (AsmLine.mk .ldrow [0, 256]).wf = false := by decide
theorem test_wf_refuses_slot_16 : (AsmLine.mk .defchar [16]).wf = false := by decide
theorem test_assembler_refuses_what_wf_refuses : assemble ⟨.nibC, [16]⟩ = none ∧ assemble ⟨.putDH, [0]⟩ = none := by decide

/-! ### Decoding: words written out from R71 and R72 (opcode, then the fields), one for each row at least -/

theorem test_decode_nop : decode 0b0000_0000_0000_0000 = some .nop := by decide
theorem test_decode_clrbuf : decode 0b0001_0000_0000_0000 = some .clrbuf := by decide
theorem test_decode_nibC : decode 0b0010_0000_0000_0011 = some (.nibC 3) := by decide
theorem test_decode_nibD : decode 0b0010_0001_0000_1010 = some (.nibD 0xA) := by decide
theorem test_decode_putC : decode 0b0011_0000_0010_1000 = some (.putC 0x28) := by decide
theorem test_decode_putD : decode 0b0011_0001_1111_1110 = some (.putD 0xFE) := by decide
theorem test_decode_putCH : decode 0b0011_0010_0011_0000 = some (.putCH 0x30) := by decide
theorem test_decode_flush : decode 0b0100_0000_0000_0000 = some .flush := by decide
theorem test_decode_writeC : decode 0b0101_0000_0000_0001 = some (.writeC 0x01) := by decide
theorem test_decode_writeD : decode 0b0101_0001_0100_0001 = some (.writeD 0x41) := by decide
theorem test_decode_writeCH : decode 0b0101_0010_0011_0000 = some (.writeCH 0x30) := by decide
theorem test_decode_setl : decode 0b0110_0000_0000_0001 = some (.setl 1) := by decide
theorem test_decode_goto : decode 0b0111_0010_0000_0101 = some (.goto 2 5) := by decide
theorem test_decode_ldrow : decode 0b1000_0011_0001_1111 = some (.ldrow 3 0x1F) := by decide
theorem test_decode_defchar : decode 0b1001_0000_0000_0111 = some (.defchar 7) := by decide
theorem test_decode_init : decode 0b1010_0000_0000_0000 = some .init := by decide

/-- V60-1, V42-2, V42-5, V42-10. -/
theorem test_decode_refuses_reserved_bits : ([0x0001, 0x0FFF, 0x1001, 0x2010, 0x2200, 0x2800, 0x3441, 0x3841] : List Word).all (fun w => (decode w).isNone) = true := by decide
/-- V42-16, V42-22, V41-5, V44-1. -/
theorem test_decode_refuses_more_reserved_bits : ([0x4001, 0x5401, 0x5801, 0x6002, 0x6101, 0x6801, 0x8800] : List Word).all (fun w => (decode w).isNone) = true := by decide
/-- V44-4, V60-3, V43-4; V42-10 and V42-22: h = 1 with rs = 1; V60-2. -/
theorem test_decode_refuses_modes_and_opcodes : ([0x9010, 0x9018, 0xA001, 0x3341, 0x5301, 0xB000, 0xC123, 0xD000, 0xE000, 0xFFFF] : List Word).all (fun w => (decode w).isNone) = true := by decide

theorem test_table_word : decodeTableWord 16 0x7205 = some (.goto 2 5) ∧ decodeTableWord 32 0x7205 = none := by decide

/-! ### One edge on a small state -/

/-- The reset state of an implementation whose clock is 1 kHz (the CLK_HZ of V10-1). -/
def start : State := { State.reset with cfg := { clkHz := .hz 1000 } }

/-- The same with SETLIGHT_EMITS = false (V41-4). -/
def silent : State := { State.reset with cfg := { clkHz := .hz 1000, setlightEmits := false } }

/-- A state about to see a command word. -/
def State.at (s : State) (w : Word) : State := { s with inputs := [commandPins w] }

/-- An edge at which the transport answers a count, while the host holds the word CLRBUF on its port. -/
def answerPins (count : Nat) : Pins := { busDone := true, busCount := count, cmdValid := true, cmdWord := 0x1000 }

/-- A state with bytes requested, about to see the transport's answer. -/
def State.answered (s : State) (bytes : List Byte) (c : Ctx) (count : Nat) : State :=
  { s.sending bytes c with inputs := [answerPins count] }

/-- What is to be seen of a next state. -/
def see {α : Type} (f : State → α) : Outcome → Option α
  | .next t => some (f t)
  | _ => none

/-- Buffer, STATUS, FSM and response pulse. -/
def core4 (t : State) : List Byte × BitVec 3 × Fsm × Bool := (t.buf, t.status, t.fsm, t.rspValid)

/-- V60-1: NOP sets STATUS back to OK. -/
theorem test_nop : see core4 (step (State.at { start with status := 5, buf := [0x08] } 0x0000)) = some ([0x08], 0, .idle, true) := by decide
/-- V42-1. -/
theorem test_clrbuf : see core4 (step (State.at { start with buf := [0x45, 0x41, 0x15, 0x11] } 0x1000)) = some ([], 0, .idle, true) := by decide
/-- V42-4. -/
theorem test_nibC : see core4 (step (State.at { start with bl := 1 } 0x2003)) = some ([0x3C, 0x38], 0, .idle, true) := by decide
/-- V42-3. -/
theorem test_nibD : see core4 (step (State.at start 0x210A)) = some ([0xA5, 0xA1], 0, .idle, true) := by decide
/-- V42-6: one byte short. -/
theorem test_nib_overflow : see (fun t => (t.len, t.status)) (step (State.at { start with buf := List.replicate 127 0 } 0x2000)) = some (127, 4) := by decide +kernel
/-- V42-7. -/
theorem test_putC : see core4 (step (State.at { start with bl := 1 } 0x3028)) = some ([0x2C, 0x28, 0x8C, 0x88], 0, .idle, true) := by decide
/-- V42-8: appended behind what is there. -/
theorem test_putD : see core4 (step (State.at { start with buf := [0x34, 0x30] } 0x31FF)) =
    some ([0x34, 0x30, 0xF5, 0xF1, 0xF5, 0xF1], 0, .idle, true) := by decide
/-- V42-11: PUT.D does not fit in two bytes, PUT.CH does. -/
theorem test_put_overflow : see (fun t => (t.len, t.status)) (step (State.at { start with buf := List.replicate 126 0 } 0x3141)) = some (126, 4) := by decide +kernel
theorem test_putCH : see (fun t => (t.len, t.status)) (step (State.at { start with buf := List.replicate 126 0 } 0x3230)) = some (128, 0) := by decide +kernel
/-- V42-12, V42-14. -/
theorem test_flush_empty : see core4 (step (State.at start 0x4000)) = some ([], 0, .idle, true) := by decide
theorem test_flush : see core4 (step (State.at { start with buf := [0x45, 0x41, 0x15, 0x11] } 0x4000)) =
    some ([0x45, 0x41, 0x15, 0x11], 0, .xfer, false) := by decide
/-- V42-19: earlier contents go; V42-18: SLOW. -/
theorem test_writeC : see (fun t => (core4 t, t.ctx)) (step (State.at { start with buf := [0x45, 0x41] } 0x5001)) =
    some (([0x04, 0x00, 0x14, 0x10], 0, .xfer, false), .slow) := by decide
/-- V42-18: 0x04 is not in SLOW_CMDS. -/
theorem test_writeC_not_slow : see (·.ctx) (step (State.at start 0x5004)) = some .user := by decide
/-- V42-17; V42-18: data 0x01 is not slow. -/
theorem test_writeD : see core4 (step (State.at { start with bl := 1 } 0x5141)) = some ([0x4D, 0x49, 0x1D, 0x19], 0, .xfer, false) := by decide
theorem test_writeD_not_slow : see (·.ctx) (step (State.at start 0x5101)) = some .user := by decide
/-- V42-20. -/
theorem test_writeCH : see core4 (step (State.at start 0x5230)) = some ([0x34, 0x30], 0, .xfer, false) := by decide
/-- V41-2: the batch goes, the byte carries the new BL. -/
theorem test_setl : see (fun t => (core4 t, t.bl)) (step (State.at { start with buf := [0x45, 0x41, 0x15, 0x11] } 0x6001)) =
    some (([0x08], 0, .xfer, false), 1) := by decide
/-- V41-4. -/
theorem test_setl_silent : see (fun t => (core4 t, t.bl)) (step (State.at { silent with buf := [0x45, 0x41, 0x15, 0x11] } 0x6001)) =
    some (([0x45, 0x41, 0x15, 0x11], 0, .idle, true), 1) := by decide
/-- V45-1: the largest position. -/
theorem test_goto : see core4 (step (State.at start 0x7313)) = some ([0xE4, 0xE0, 0x74, 0x70], 0, .xfer, false) := by decide
/-- V45-3: the buffer is not cleared. -/
theorem test_goto_bad : see core4 (step (State.at { start with buf := [0x45, 0x41, 0x15, 0x11] } 0x7014)) =
    some ([0x45, 0x41, 0x15, 0x11], 2, .idle, true) := by decide
/-- V44-1. -/
theorem test_ldrow : see (·.row) (step (State.at start 0x831F)) = some #v[0, 0, 0, 0x1F, 0, 0, 0, 0] := by decide
/-- P4: the framing, CGRAM 0x50, row 1 = 0x0A as data, the restoration. -/
theorem test_defchar : see (fun t => (t.buf.take 16, t.buf.drop 40, t.len, t.fsm))
    (step (State.at { start with row := #v[0x00, 0x0A, 0x1F, 0x1F, 0x0E, 0x04, 0x00, 0x00] } 0x9002)) =
    some ([0x04, 0x00, 0x64, 0x60, 0x54, 0x50, 0x04, 0x00, 0x05, 0x01, 0x05, 0x01, 0x05, 0x01, 0xA5, 0xA1], [0x84, 0x80, 0x04, 0x00],
      44, .xfer) := by decide
/-- V44-4. -/
theorem test_defchar_bad : see core4 (step (State.at { start with buf := [0x45, 0x41, 0x15, 0x11] } 0x9008)) =
    some ([0x45, 0x41, 0x15, 0x11], 3, .idle, true) := by decide
/-- V43-1, V43-3. -/
theorem test_init : see (fun t => (core4 t, t.ctx, t.stepReg)) (step (State.at { start with bl := 1, buf := [0x45, 0x41] } 0xA000)) =
    some (([0x3C, 0x38], 0, .xfer, false), .init, 0) := by decide
/-- V42-2: an illegal word changes nothing but STATUS. -/
theorem test_illegal : see core4 (step (State.at { start with buf := [0x45, 0x41, 0x15, 0x11] } 0x1001)) =
    some ([0x45, 0x41, 0x15, 0x11], 5, .idle, true) := by decide
/-- V60-3 (a), (b): ILLEGAL before BAD_SLOT and before OVERFLOW. -/
theorem test_illegal_first : see (·.status) (step (State.at start 0x9018)) = some 5 ∧
    see (·.status) (step (State.at { start with buf := List.replicate 128 0 } 0x3341)) = some 5 := by decide

/-- V42-13: count 3 of 4. -/
theorem test_answer_short : see core4 (step (State.answered start [0x2C, 0x28, 0x8C, 0x88] .user 3)) =
    some ([0x2C, 0x28, 0x8C, 0x88], 1, .idle, true) := by decide
/-- V42-14: count 5 of 4 is no failure. -/
theorem test_answer_long : see core4 (step (State.answered start [0x45, 0x41, 0x15, 0x11] .user 5)) =
    some ([0x45, 0x41, 0x15, 0x11], 0, .idle, true) := by decide
/-- R35, R10: bus_count has 9 bits where BUF_DEPTH is 128, so 512 + 3 is 3, and bus_rd_idx has 8. -/
theorem test_port_widths : (State.answered start [0x08] .user 515).busCount = 3 ∧
    { start with inputs := [{ busRdIdx := 257 }] }.busRdIdx = 1 := by decide
/-- R222: a quiet edge in IDLE keeps the buffer and STATUS. -/
theorem test_idle_edge : see core4 (step { start with buf := [0x45, 0x41], status := 4, rspValid := true }) =
    some ([0x45, 0x41], 4, .idle, false) := by decide
/-- R165: T_INIT[7] may grow by itself. -/
theorem test_last_wait_grows : tInit { tInit := #v[5000, 1000, 1000, 2000, 2000, 2000, 2000, 9000] } 7 = 9000 := by decide
/-- R9, D18: DEFCHAR_ENTRY_CMD is CMD_ENTRY unless it is given its own value. -/
theorem test_entry_command : Config.reference.defcharEntryCmd = 0x06 ∧ ({ cmdEntry := 0x04 } : Config.Params).defcharEntryCmd = 0x04 := by
  decide
/-- R33: the response outputs in the cycle after a completion. -/
theorem test_response_outputs : see (fun t => (t.outputs.rspValid, t.outputs.rspStatus)) (step (State.at start 0x7400)) = some (true, 2) := by
  decide
/-- V10-1: N = 2 cycles of 1 kHz for 2 ms. -/
theorem test_answer_slow : see (fun t => (t.fsm, t.wcnt, t.rspValid)) (step (State.answered start [0x04, 0x00, 0x14, 0x10] .slow 4)) =
    some (.wait, 2, false) := by decide
/-- V10-1: edge f + 1, then edge f + 2. -/
theorem test_wait_ticks : see (fun t => (t.fsm, t.wcnt)) (step { start with fsm := .wait, ctx := .slow, wcnt := 2 }) = some (.wait, 1) := by decide
theorem test_wait_ends : see (fun t => (t.fsm, t.status, t.rspValid)) (step { start with fsm := .wait, ctx := .slow, wcnt := 1, status := 5 }) =
    some (.idle, 0, true) := by decide
/-- P2: from step 3 to step 4, the first in full-byte mode. -/
theorem test_wait_ends_in_next_step : see (fun t => (t.buf, t.fsm, t.stepReg)) (step { start with fsm := .wait, ctx := .init, stepReg := 3, wcnt := 1 }) =
    some ([0x24, 0x20, 0x84, 0x80], .xfer, 4) := by decide
/-- V70-1. -/
theorem test_reset_edge : see (fun t => (core4 t, t.bl, t.row)) (step { start with
    bl := 1, buf := List.replicate 44 0x08, row := #v[0x1F, 0x1F, 0x1F, 0x1F, 0x1F, 0x1F, 0x1F, 0x1F], status := 1, fsm := .wait,
    ctx := .init, wcnt := 1, inputs := [{ rst := true, cmdValid := true, cmdWord := 0x6001 }] }) =
    some (([], 0, .idle, false), 0, #v[0, 0, 0, 0, 0, 0, 0, 0]) := by decide
/-- The decode table of section 2.1: 0x35 with 0x71, and 0x02, which the LNE never composes. -/
theorem test_decode_port : decodeFields 0x35 = ⟨1, 0, 1, 0, 3⟩ ∧ decodePair 0x35 0x71 = 0x37 ∧ decodeFields 0x02 = ⟨0, 1, 0, 0, 0⟩ := by decide
/-- The host's use: the word given to withFetchWord runs at the very next step. -/
theorem test_withFetchWord : see (fun t => (t.buf, t.bl)) (step (State.reset.withFetchWord 16 0x6001)) = some ([0x08], 1) := by decide
/-- R80, R81: text to words; 0x41 is 'A'. -/
theorem test_text : assembleText {} "GOTO 2, 0x05 ; move".toList = some [0x7205] ∧
    assembleText {} "WRITE.D 'A'".toList = some [0x5141] ∧ assembleText {} "NIB.C 16".toList = none ∧
    assembleText {} "PUTDIGIT 7".toList = some [0x3137] := by decide
/-- P3: STRING "Hi!" is CLRBUF, three PUT.D, FLUSH. -/
theorem test_string : (Pseudo.string [0x48, 0x69, 0x21]).expand.map encode = [0x1000, 0x3148, 0x3169, 0x3121, 0x4000] := by decide

/-! ### Witnesses: states and operands that meet a statement's hypotheses, one for each clause at a boundary -/

/-- The invariant at the start. -/
theorem witness_invariant : start.Inv :=
  ⟨by decide, by decide, by decide, by decide, by decide, by decide⟩

/-- An INIT in its first transaction, with its answer. -/
def inInit : State := State.answered start [0x34, 0x30] .init 2

/-- A clear command in its wait. -/
def inWait : State := { start with buf := [0x04, 0x00, 0x14, 0x10], fsm := .wait, ctx := .slow, wcnt := 1 }

theorem witness_invariant_in_init : inInit.Inv :=
  ⟨by decide, by decide, by decide, by decide, by decide, by decide⟩
theorem witness_invariant_in_wait : inWait.Inv :=
  ⟨by decide, by decide, by decide, by decide, by decide, by decide⟩

theorem witness_ResetEdgeForcesResetValues : { inWait with inputs := [{ rst := true }] }.pins.rst = true := by decide
theorem witness_EncodeInvertsDecode : decode 0x7205 = some (.goto 2 5) := by decide
theorem witness_OpcodeRowsNeverOverlap : opcodeRows[12].holds 0x7FFF = true := by decide
theorem witness_StepRunsDecodedInstruction : (State.at start 0x7205).pins.rst = false ∧ (State.at start 0x7205).fsm = .idle ∧
    (State.at start 0x7205).pins.cmdValid = true ∧ decode (State.at start 0x7205).pins.cmdWord = some (.goto 2 5) := by decide
/-- R75's three cases. -/
theorem witness_IllegalWordsOnlyWriteStatus : ((State.at start 0xB000).pins.rst = false ∧ (State.at start 0xB000).fsm = .idle ∧
      (State.at start 0xB000).pins.cmdValid = true ∧ illegalWord (State.at start 0xB000).pins.cmdWord = true) ∧
    illegalWord (State.at start 0x1001).pins.cmdWord = true ∧ illegalWord (State.at start 0x3341).pins.cmdWord = true := by decide
theorem witness_NopOnlyCompletesOk : (0 < (0x0001 : Word).toNat ∧ (0x0001 : Word).toNat ≤ 0x0FFF) ∧
    0 < (0x0FFF : Word).toNat ∧ (0x0FFF : Word).toNat ≤ 0x0FFF := by decide
theorem witness_ClrbufEmptiesTheBuffer : (0x1000 < (0x1001 : Word).toNat ∧ (0x1001 : Word).toNat ≤ 0x1FFF) ∧
    0x1000 < (0x1FFF : Word).toNat ∧ (0x1FFF : Word).toNat ≤ 0x1FFF := by decide
/-- The lowest and the highest reserved bits of NB, BY and R, and h = 1 with rs = 1. -/
theorem witness_reserved_bits : ((0x2010 : Word).extractLsb' 12 4 = 2 ∧ (0x2010 : Word).extractLsb' 4 4 ≠ 0) ∧
    ((0x2800 : Word).extractLsb' 12 4 = 2 ∧ (0x2800 : Word).extractLsb' 9 3 ≠ 0) ∧
    ((0x3800 : Word).extractLsb' 12 4 = 3 ∧ (0x3800 : Word).extractLsb' 10 2 ≠ 0) ∧
    ((0x3300 : Word).extractLsb' 12 4 = 3 ∧ (0x3300 : Word).extractLsb' 8 2 = 3) ∧
    (0x8800 : Word).extractLsb' 12 4 = 8 ∧ (0x8800 : Word).extractLsb' 11 1 = 1 := by decide
/-- LEN 126 and 127 of 128. -/
theorem witness_NibAppendsOnePairOrOverflows : (List.replicate 126 (0 : Byte)).length + 2 ≤ start.cfg.bufDepth ∧
    start.cfg.bufDepth < (List.replicate 127 (0 : Byte)).length + 2 := by decide +kernel
/-- LEN 124 and 125 for four bytes, 126 and 127 for two. -/
theorem witness_PutAppendsOneValueOrOverflows : (List.replicate 124 (0 : Byte)).length + 4 ≤ start.cfg.bufDepth ∧
    start.cfg.bufDepth < (List.replicate 125 (0 : Byte)).length + 4 ∧ (List.replicate 126 (0 : Byte)).length + 2 ≤ start.cfg.bufDepth ∧
    start.cfg.bufDepth < (List.replicate 127 (0 : Byte)).length + 2 := by decide +kernel
theorem witness_FlushRequestsTheWholeBuffer : start.buf = [] ∧ { start with buf := [0x08] }.buf ≠ [] := by decide
theorem witness_WriteRequestsOneValue : start.cfg.Legal ∧ (0x03 : Byte) ∈ start.cfg.slowCmds ∧ (0x04 : Byte) ∉ start.cfg.slowCmds := by decide
theorem witness_SetlWritesTheBacklight : (start.cfg.Legal ∧ start.cfg.setlightEmits = true) ∧ silent.cfg.Legal ∧
    silent.cfg.setlightEmits = false := by decide
/-- Positions (3, 19), (4, 19) and (3, 20). -/
theorem witness_GotoRequestsThePositionOrRefusesIt : start.cfg.Legal ∧ ((3 : BitVec 4).toNat < 4 ∧ (19 : Byte).toNat < 20) ∧
    4 ≤ (4 : BitVec 4).toNat ∧ 20 ≤ (20 : Byte).toNat := by decide
theorem witness_PositionCommandsNeverWrap : Config.reference.Legal ∧ (3 : BitVec 4).toNat < 4 ∧ (19 : Byte).toNat < 20 := by decide
theorem witness_DefcharRequestsFortyFourBytes : start.cfg.Legal ∧ (7 : BitVec 4).toNat < 8 ∧ 8 ≤ (8 : BitVec 4).toNat := by decide
theorem witness_InitStartsAtStepZero : start.cfg.Legal := by decide
/-- Counts 3 and 4 of 4, and the three contexts. -/
theorem witness_AnswerFollowsContext : (∀ c ∈ [Ctx.user, .slow, .init], ∀ n ∈ [3, 4],
      let s := State.answered start [0x04, 0x00, 0x14, 0x10] c n
      s.pins.rst = false ∧ s.fsm = .xfer ∧ s.pins.busDone = true ∧ s.ctx = c ∧ s.busCount = n) ∧
    3 < [(0x04 : Byte), 0x00, 0x14, 0x10].length ∧ [(0x04 : Byte), 0x00, 0x14, 0x10].length ≤ 4 := by decide
theorem witness_InitStopsAtAShortAnswer : let s := State.answered start [0x34, 0x30] .init 1
    s.pins.rst = false ∧ s.fsm = .xfer ∧ s.ctx = .init ∧ s.pins.busDone = true ∧ s.busCount < s.buf.length := by decide
theorem witness_IdleEdgeKeepsTheState : let s := { start with buf := [0x08] }
    s.pins.rst = false ∧ s.fsm = .idle ∧ s.pins.cmdValid = false := by decide
theorem witness_UnansweredTransactionStays : let s := start.sending [0x08] .user
    s.fsm = .xfer ∧ ∀ k < 3, (s.pinsAt k).rst = false ∧ (s.pinsAt k).busDone = false := by decide
theorem witness_WaitCountIsTheCeiling : Config.reference.Legal ∧ 0 < 1 := by decide
theorem witness_WaitLastsItsCount : let s := { inWait with wcnt := 3 }
    s.fsm = .wait ∧ s.wcnt = 2 + 1 ∧ ∀ k < 2, (s.pinsAt k).rst = false := by decide
/-- SLOW, INIT at step 6, INIT at step 7. -/
theorem witness_WaitEndsInItsContinuation : (inWait.cfg.Legal ∧ inWait.pins.rst = false ∧ inWait.fsm = .wait ∧ inWait.wcnt ≤ 1 ∧
      inWait.ctx = .slow) ∧
    ∀ k ∈ ([6, 7] : List (Fin 8)), let s := { inWait with ctx := .init, stepReg := k }
      s.cfg.Legal ∧ s.pins.rst = false ∧ s.fsm = .wait ∧ s.wcnt ≤ 1 ∧ s.ctx = .init ∧ (s.stepReg.val < 7 ∨ s.stepReg = 7) := by decide
/-- An edge at which the host holds CLRBUF on its port and the transport reads the byte at index 1. -/
def heldPins : Pins := { cmdValid := true, cmdWord := 0x1000, busRdIdx := 1, decA := 0x35 }

/-- An exchange of two such edges, the answer, and a wait in which `bus_done` is up too. -/
def exchange (count n : Nat) : Exchange := ⟨[heldPins, heldPins], answerPins count, List.replicate n { heldPins with busDone := true }⟩

theorem witness_InitRunsItsEightSteps :
    let e : Fin 8 → Exchange := fun k => exchange (initBytes start.cfg start.bl k).length (waitCycles start.cfg (tInit start.cfg k))
    let script := commandPins 0xA000 :: (List.finRange 8).flatMap fun k => (e k).pins
    let s := { start with inputs := script ++ [] }
    s.cfg.Legal ∧ s.fsm = .idle ∧ (commandPins 0xA000).Presents 0xA000 ∧
    (∀ k, (e k).Answered (waitCycles s.cfg (tInit s.cfg k)) ∧ (initBytes s.cfg s.bl k).length ≤ (e k).count s.cfg) ∧
    s.inputs = script ++ [] := by decide
theorem witness_SlowWriteWaitsThenCompletes :
    let e := exchange 4 (waitCycles start.cfg start.cfg.tSlow)
    let s := { start with inputs := commandPins 0x5001 :: e.pins ++ [] }
    s.cfg.Legal ∧ s.fsm = .idle ∧ (0x01 : Byte) ∈ s.cfg.slowCmds ∧ (commandPins 0x5001).Presents (0x5000 + (0x01 : Byte).setWidth 16) ∧
    e.Answered (waitCycles s.cfg s.cfg.tSlow) ∧ 4 ≤ e.count s.cfg ∧ s.inputs = commandPins 0x5001 :: e.pins ++ [] := by decide
/-- Answers 0 and 1. -/
theorem witness_SetlKeepsTheNewBacklight : ∀ n ∈ [0, 1],
    let e := exchange n 0
    let s := { start with inputs := commandPins 0x6001 :: e.pins ++ [] }
    s.cfg.Legal ∧ s.cfg.setlightEmits = true ∧ s.fsm = .idle ∧ (commandPins 0x6001).Presents (0x6000 + (1 : Bit).setWidth 16) ∧
    e.Answered 0 ∧ e.count s.cfg = n ∧ s.inputs = commandPins 0x6001 :: e.pins ++ [] := by decide
/-- The longest batch, 32 characters of 128 bytes, answered short by one and in full. -/
theorem witness_BatchIsOneTransaction : ∀ n ∈ [127, 128],
    let e := exchange n 0
    let cs := List.replicate 32 ((0x41 : Byte), (⟨commandPins 0x3141, [{ busDone := true }]⟩ : Offer))
    let clr : Offer := ⟨commandPins 0x1000, []⟩
    let script := clr.pins ++ cs.flatMap (fun c => c.2.pins) ++ commandPins 0x4000 :: e.pins
    let s := { start with inputs := script ++ [] }
    s.fsm = .idle ∧ cs ≠ [] ∧ 4 * cs.length ≤ s.cfg.bufDepth ∧ clr.Presents 0x1000 ∧
    (∀ c ∈ cs, c.2.Presents (0x3100 + c.1.setWidth 16)) ∧ (commandPins 0x4000).Presents 0x4000 ∧ e.Answered 0 ∧
    e.count s.cfg = n ∧ s.inputs = script ++ [] := by decide
theorem witness_FieldDecodeFindsTheComposition : (0xFD : Byte).getLsbD 1 = false ∧ (0x02 : Byte).getLsbD 1 = true := by decide
theorem witness_StepKeepsInvariant : inInit.Inv ∧ ∃ t, step inInit = .next t := ⟨witness_invariant_in_init, _, rfl⟩
/-- An INIT about to be accepted. -/
def witnessInit : State := State.at start 0xA000
theorem witness_NothingStopsTheMachine : witnessInit.Inv :=
  ⟨by decide, by decide, by decide, by decide, by decide, by decide⟩
theorem witness_WaitWithoutContinuationGoesOn : let s := { inWait with ctx := .user }
    s.cfg.Legal ∧ s.pins.rst = false ∧ s.fsm = .wait ∧ s.wcnt ≤ 1 ∧ s.ctx = .user := by decide
/-- The power-up state of the review: such a wait, and a reset one edge later. -/
theorem witness_ResetIsReachedFromAnyPowerUpState :
    (({ inWait with ctx := .user, inputs := [quietPins, { rst := true }] } : State).pinsAt 1).rst = true := by decide
theorem witness_ParametersNeverChange : ∃ t, step (State.at start 0x6001) = .next t := ⟨_, rfl⟩
theorem witness_OnlySetlWritesTheBacklight : (∃ t, step (State.at start 0x6001) = .next t ∧ t.bl ≠ start.bl) ∧
    witnessInit.Inv ∧ ∃ t, step witnessInit = .next t ∧ t.fsm ≠ .idle ∧ t.ctx = .init :=
  ⟨⟨_, rfl, by decide⟩, witness_NothingStopsTheMachine, _, rfl, by decide, by decide⟩
theorem witness_RowsKeepTheirValues : ∃ t, step (State.at start 0x87FF) = .next t ∧ t.row[7] ≠ start.row[7] := ⟨_, rfl, by decide⟩
theorem witness_StatusIsWrittenWithTheResponse : (State.at start 0x0000).pins.rst = false ∧ ∃ t, step (State.at start 0x0000) = .next t :=
  ⟨by decide, _, rfl⟩
theorem witness_BufferStaysInWriteMode : WriteMode inInit.buf ∧ ∃ t, step inInit = .next t := ⟨by decide, _, rfl⟩
theorem witness_SetupIsFollowedByLatch : handshake start.buf = true ∧
    ∃ t, step (State.at start 0x210F) = .next t ∧ t.buf[0]? = some 0xF5 ∧ (decodeFields 0xF5).en = 1 := ⟨by decide, _, rfl, by decide, by decide⟩
/-- The three ways the last hypothesis is met. -/
theorem witness_BacklightIsUniform :
    (CarriesBacklight start.bl start.buf ∧ start.cfg.setlightEmits = true ∧ ∃ t, step (State.at start 0x6001) = .next t) ∧
    (CarriesBacklight silent.bl silent.buf ∧ ∃ t, step (State.at silent 0x3141) = .next t ∧ t.bl = silent.bl) ∧
    { silent with inputs := [{ rst := true }] }.pins.rst = true :=
  ⟨⟨by decide, by decide, _, rfl⟩, ⟨by decide, _, rfl, by decide⟩, by decide⟩
theorem witness_TransactionsAreWholeBuffers : ∃ t, step inInit = .next t ∧ t.transactions ≠ inInit.transactions := ⟨_, rfl, by decide⟩
/-- A transaction with its answer; a wait that goes on; a byte the transport reads. -/
theorem witness_BufferIsStableInXferAndWithinWaits :
    (inInit.pins.rst = false ∧ inInit.fsm = .xfer ∧ ∃ t, step inInit = .next t) ∧
    ({ inWait with wcnt := 2 }.pins.rst = false ∧ { inWait with wcnt := 2 }.fsm = .wait ∧
      ∃ t, step { inWait with wcnt := 2 } = .next t ∧ t.fsm = .wait) ∧
    inInit.fsm = .xfer ∧ inInit.buf[1]? = some 0x30 ∧
    { inInit with inputs := [{ busRdIdx := 1 }] }.busRdIdx = 1 :=
  ⟨⟨by decide, by decide, _, rfl⟩, ⟨by decide, by decide, _, rfl, by decide⟩, by decide, by decide, by decide⟩
theorem witness_BusyEngineIgnoresOtherPorts : inInit.inputs = answerPins 2 :: [] ∧ inInit.fsm ≠ .idle ∧
    (State.at start 0x0000).inputs = commandPins 0x0000 :: [] ∧ (State.at start 0x0000).fsm ≠ .xfer := by decide
/-- Two states that do differ. -/
theorem witness_HiddenRegistersAreUnobservable : SameButHidden start { start with ctx := .init, stepReg := 5, wcnt := 9 } ∧
    start ≠ { start with ctx := .init, stepReg := 5, wcnt := 9 } :=
  ⟨⟨rfl, by decide, by decide, by decide⟩, by decide⟩
theorem witness_DecodePortReadsTheFields : (State.at start 0x0000).inputs = commandPins 0x0000 :: [] := by decide
theorem witness_OutputsFollowTheRegisters : inInit.fsm = .xfer ∧ { start with rspValid := true }.outputs.rspValid = true := by decide
theorem witness_LengthFitsItsWidth_params : Config.reference.Legal := by decide
theorem witness_LengthFitsItsWidth : State.Inv { start with buf := List.replicate 128 0x08 } :=
  ⟨by decide +kernel, by decide +kernel, by decide +kernel, by decide +kernel, by decide +kernel, by decide +kernel⟩
theorem witness_CommandsAnswerOnlyTheirCodes : start.cfg.Legal ∧ ∃ t, exec (.goto 4 0) start = .next t := ⟨by decide, _, rfl⟩
theorem witness_AssemblerIsExact : (AsmLine.mk .goto [15, 255]).wf = true ∧ (AsmLine.mk .goto [16, 255]).wf = false := by decide

end Sys2Proof.Tests
end

/-! The parameters and the widths they fix (00_scope.md R9, R10). -/

namespace Sys2Proof.Machine

open Sys2Proof

/-- No case of an edge writes the configuration; the command and INIT cases are `Effect`s. -/
theorem EdgeShape.cfg_eq {s t : State} (h : EdgeShape s t) : t.cfg = s.cfg := by
  cases h with
  | command i t r f v d e => exact (effect_of_exec e).cfg_eq
  | waitedInit t r f w c k e => exact (effect_of_initStep e).cfg_eq
  | waitedOpenInit k t r f w c e => exact (effect_of_initStep e).cfg_eq
  | _ => rfl

/-- Settles O42: an edge has one of the shapes of `EdgeShape`, and each keeps the configuration. -/
theorem parametersNeverChange : Obligations.ParametersNeverChange :=
  fun _ _ h => (step_shape h).cfg_eq

theorem bufDepth_lt_two_pow_lenW (p : Config.Params) : p.bufDepth < 2 ^ p.lenW := Nat.lt_log2_self

/-- A depth that is not zero does not fit in one bit less than `LEN_W`. -/
theorem two_pow_lenW_sub_one_le {p : Config.Params} (h : p.bufDepth ≠ 0) : 2 ^ (p.lenW - 1) ≤ p.bufDepth :=
  Nat.log2_self_le h

/-- A buffer within its depth (R22) has a length of `LEN_W` bits. -/
theorem State.len_lt_two_pow_lenW {s : State} (h : s.len ≤ s.cfg.bufDepth) : s.len < 2 ^ s.cfg.lenW :=
  Nat.lt_of_le_of_lt h (bufDepth_lt_two_pow_lenW s.cfg)

/-- `bus_len` has `LEN_W` bits: it is `LEN` while a request is up, and a free value of that width otherwise (R35). -/
theorem State.busLen_lt_two_pow_lenW {s : State} (h : s.len ≤ s.cfg.bufDepth) : s.busLen < 2 ^ s.cfg.lenW := by
  unfold State.busLen
  split
  · exact State.len_lt_two_pow_lenW h
  · exact Nat.mod_lt _ (Nat.two_pow_pos _)

/-- Settles O54: `LEN_W` is the bit length of `BUF_DEPTH`, the invariant bounds the buffer by that depth, and the sampled pins are
cut to their ports. -/
theorem lengthFitsItsWidth : Obligations.LengthFitsItsWidth := by
  refine ⟨by decide, fun p hp => ?_, fun s hs => ?_, fun s => ⟨s.busRdIdx_lt, s.busCount_lt⟩⟩
  · obtain ⟨hdepth, -⟩ := hp
    exact ⟨bufDepth_lt_two_pow_lenW p, two_pow_lenW_sub_one_le (by omega)⟩
  · obtain ⟨hlen, -⟩ := hs.buffer
    exact ⟨State.len_lt_two_pow_lenW hlen, State.busLen_lt_two_pow_lenW hlen⟩

end Sys2Proof.Machine

/-! The equations of one edge, by reset and FSM (10_state.md R31, R32, R37), and what the edge reads of its pins (R36, R217). -/

namespace Sys2Proof.Machine

open Sys2Proof

theorem step_of_rst {s : State} (r : s.pins.rst = true) : step s = .next s.beginEdge.resetAction := by
  simp [step, clockEdge, r]

theorem step_of_idle {s : State} (r : s.pins.rst = false) (f : s.fsm = .idle) :
    step s = if s.pins.cmdValid then acceptWord s.pins.cmdWord s.beginEdge else .next s.beginEdge := by
  simp [step, clockEdge, r, f]

theorem step_of_xfer {s : State} (r : s.pins.rst = false) (f : s.fsm = .xfer) :
    step s = if s.pins.busDone then completeTransaction s.busCount s.beginEdge else .next s.beginEdge := by
  simp [step, clockEdge, r, f]

theorem step_of_wait {s : State} (r : s.pins.rst = false) (f : s.fsm = .wait) : step s = waitEdge s.beginEdge := by
  simp [step, clockEdge, r, f]

theorem acceptWord_of_decode {w : Word} {i : Instr} (d : decode w = some i) (s : State) : acceptWord w s = exec i s := by
  simp [acceptWord, d]

theorem State.pins_of_inputs {s : State} {p : Pins} {ps : List Pins} (h : s.inputs = p :: ps) : s.pins = p := by
  simp [State.pins, h]

/-- All that an edge reads of its pins: `rst`, in IDLE the command port, in XFER the transport's answer. -/
theorem step_eq_of_pins_agree {s t : State} (hb : t.beginEdge = s.beginEdge) (hr : t.pins.rst = s.pins.rst)
    (hcmd : s.fsm = .idle → t.pins.cmdValid = s.pins.cmdValid ∧ t.pins.cmdWord = s.pins.cmdWord)
    (hbus : s.fsm = .xfer → t.pins.busDone = s.pins.busDone ∧ t.pins.busCount = s.pins.busCount) : step t = step s := by
  have hcfg : t.cfg = s.cfg := by simpa using congrArg State.cfg hb
  have hfsm : t.fsm = s.fsm := by simpa using congrArg State.fsm hb
  cases r : s.pins.rst with
  | true => rw [step_of_rst (hr.trans r), step_of_rst r, hb]
  | false =>
    cases f : s.fsm with
    | idle =>
      obtain ⟨hv, hw⟩ := hcmd f
      rw [step_of_idle (hr.trans r) (hfsm.trans f), step_of_idle r f, hb, hv, hw]
    | xfer =>
      obtain ⟨hd, hn⟩ := hbus f
      have hcount : t.busCount = s.busCount := by rw [State.busCount, State.busCount, hcfg, hn]
      rw [step_of_xfer (hr.trans r) (hfsm.trans f), step_of_xfer r f, hb, hcount, hd]
    | wait => rw [step_of_wait (hr.trans r) (hfsm.trans f), step_of_wait r f, hb]

/-- The same for other pins in the place of the coming edge's. -/
theorem step_replacePins {s : State} {p q : Pins} {ps : List Pins} (h : s.inputs = p :: ps) (hr : q.rst = p.rst)
    (hcmd : s.fsm = .idle → q.cmdValid = p.cmdValid ∧ q.cmdWord = p.cmdWord)
    (hbus : s.fsm = .xfer → q.busDone = p.busDone ∧ q.busCount = p.busCount) :
    step { s with inputs := q :: ps } = step s := by
  have hp : s.pins = p := State.pins_of_inputs h
  exact step_eq_of_pins_agree (by simp [State.beginEdge, h]) (hp ▸ hr) (hp ▸ hcmd) (hp ▸ hbus)

/-- Settles O51: the command port is read in IDLE only, the transport's answer in XFER only. -/
theorem busyEngineIgnoresOtherPorts : Obligations.BusyEngineIgnoresOtherPorts := fun _ _ _ h =>
  ⟨fun _ _ hf => step_replacePins h rfl (fun f => absurd f hf) fun _ => ⟨rfl, rfl⟩,
   fun _ _ hf => step_replacePins h rfl (fun _ => ⟨rfl, rfl⟩) fun f => absurd f hf⟩

@[simp] theorem highNibble_toNat (v : Byte) : (highNibble v).toNat = v.toNat / 16 := by
  have := v.isLt
  simp [highNibble, Nat.shiftRight_eq_div_pow]; omega

/-- The pair decode (R106) puts its two nibbles side by side. -/
theorem decodePair_toNat (a b : Byte) : (decodePair a b).toNat = 16 * (a.toNat / 16) + b.toNat / 16 := by
  have hb : b.toNat / 16 < 2 ^ 4 := by have := b.isLt; omega
  have hor := Nat.shiftLeft_add_eq_or_of_lt hb (a.toNat / 16)
  have hshift : (a.toNat / 16) <<< 4 = 16 * (a.toNat / 16) := by rw [Nat.shiftLeft_eq]; omega
  simp only [decodePair, BitVec.toNat_or, BitVec.toNat_shiftLeft, BitVec.toNat_setWidth, highNibble_toNat]
  rw [Nat.mod_eq_of_lt (a := a.toNat / 16) (by omega), Nat.mod_eq_of_lt (a := b.toNat / 16) (by omega),
    Nat.mod_eq_of_lt (by omega), ← hor, hshift]

/-- Settles O56: the fields are bits of `dec_a`, the value is the two high nibbles, and an edge does not read `dec_a` and `dec_b`. -/
theorem decodePortReadsTheFields : Obligations.DecodePortReadsTheFields :=
  ⟨fun _ _ _ _ _ h => step_replacePins h rfl (fun _ => ⟨rfl, rfl⟩) fun _ => ⟨rfl, rfl⟩,
   fun _ => ⟨rfl, rfl, rfl, rfl, rfl, decodePair_toNat _ _⟩⟩

end Sys2Proof.Machine

/-! Reset values, outputs and acceptance (10_state.md R31 to R35, R38). -/

namespace Sys2Proof.Machine

open Sys2Proof

/-- Settles O1: each value is a field of the reset state or an output read off it. -/
theorem resetStateHoldsSpecValues : Obligations.ResetStateHoldsSpecValues :=
  ⟨rfl, rfl, rfl, by decide, rfl, rfl, rfl, rfl, rfl⟩

@[simp] theorem State.cmdReady_iff (s : State) : s.cmdReady = true ↔ s.pins.rst = false ∧ s.fsm = .idle := by
  simp [State.cmdReady]

@[simp] theorem State.busReq_iff (s : State) : s.busReq = true ↔ s.fsm = .xfer := by simp [State.busReq]

@[simp] theorem State.busy_iff (s : State) : s.busy = true ↔ s.fsm ≠ .idle := by simp [State.busy]

theorem State.busLen_of_xfer {s : State} (f : s.fsm = .xfer) : s.busLen = s.len := if_pos (s.busReq_iff.mpr f)

theorem State.rspStatus_of_rspValid {s : State} (v : s.rspValid = true) : s.rspStatus = s.status := if_pos v

/-- Settles O53: each output by the lemma that says which register it follows. -/
theorem outputsFollowTheRegisters : Obligations.OutputsFollowTheRegisters := fun s =>
  ⟨rfl, rfl, rfl, s.busy_iff, s.cmdReady_iff, s.busReq_iff, State.busLen_of_xfer, rfl, State.rspStatus_of_rspValid⟩

/-- A field at its own width is in its operand's range (R73, R80). -/
theorem Instr.wf_eq_true (i : Instr) : i.wf = true := by
  cases i with
  | nop | clrbuf | flush | init => rfl
  | nibC x | nibD x | putC x | putD x | putCH x | writeC x | writeD x | writeCH x | setl x | defchar x =>
    simpa [Instr.wf, Instr.line, AsmLine.wf, Mnemonic.bounds] using x.isLt
  | goto x y | ldrow x y =>
    simpa [Instr.wf, Instr.line, AsmLine.wf, Mnemonic.bounds] using And.intro x.isLt y.isLt

/-- Settles O8: the accepting edge in IDLE runs the decoded command on the state the edge begins with. -/
theorem stepRunsDecodedInstruction : Obligations.StepRunsDecodedInstruction := fun s i r f v d => by
  refine ⟨Instr.wf_eq_true i, ?_⟩
  rw [step_of_idle r f, if_pos v, acceptWord_of_decode d]
  rfl

end Sys2Proof.Machine

/-! STATUS and the response (10_state.md R24, R33; 60_exceptions.md R210). -/

namespace Sys2Proof.Machine

open Sys2Proof

/-- A command completes with a response that is its STATUS, or starts a transaction and answers nothing. -/
theorem Effect.response {s t : State} (h : Effect s t) :
    (t.rspValid = true ∧ t.responses = s.responses ++ [t.status] ∧ t.fsm = .idle) ∨
    (t.rspValid = s.rspValid ∧ t.responses = s.responses ∧ t.status = s.status) := by
  cases h with
  | finish | clear | push | light | row => exact .inl ⟨rfl, rfl, rfl⟩
  | flush => exact .inr ⟨rfl, rfl, rfl⟩
  | send s' before => rcases before with rfl | ⟨_, rfl⟩ | ⟨_, rfl⟩ <;> exact .inr ⟨rfl, rfl, rfl⟩
  | part s' before => rcases before with rfl | ⟨_, rfl⟩ | ⟨_, rfl⟩ <;> exact .inl ⟨rfl, rfl, rfl⟩

/-- Settles O45: each case of an edge finishes a command, or leaves STATUS and the responses; commands by `Effect.response`. -/
theorem statusIsWrittenWithTheResponse : Obligations.StatusIsWrittenWithTheResponse := fun s t h hr => by
  cases step_shape h with
  | reset r => rw [hr] at r; cases r
  | command i t r f v d e => exact (effect_of_exec e).response
  | waitedInit t r f w c k e => exact (effect_of_initStep e).response
  | waitedOpenInit k t r f w c e => exact (effect_of_initStep e).response
  | illegal | short | sent | waitedSlow | waitedOpenDone | waitedLast => exact .inl ⟨rfl, rfl, rfl⟩
  | idle | request | sentSlow | sentInit | tick | waitedOpen => exact .inr ⟨rfl, rfl, rfl⟩

end Sys2Proof.Machine

/-! The invariant (10_state.md R22, R25; 20_memory.md R55, R59, R65). `State.Sound` is the part of it that no control register enters,
so every operation on the state keeps it; the engine's clauses say nothing in IDLE, so an edge that ends there needs nothing more. -/

namespace Sys2Proof.Machine

open Sys2Proof

/-- `State.Inv` without the engine's clauses. -/
structure State.Sound (s : State) : Prop where
  params : s.cfg.Legal
  buffer : Sequence s.cfg s.buf
  code : s.status.toNat ≤ 5
  record : ∀ t ∈ s.transactions, t.bytes ≠ [] ∧ Sequence s.cfg t.bytes
  answers : ∀ c ∈ s.responses, c.toNat ≤ 5

theorem State.Inv.sound {s : State} (h : s.Inv) : s.Sound := ⟨h.params, h.buffer, h.code, h.record, h.answers⟩

theorem State.Sound.inv {s : State} (h : s.Sound) (e : s.EngineLegal) : s.Inv :=
  ⟨h.params, h.buffer, h.code, e, h.record, h.answers⟩

theorem State.engineLegal_of_idle {s : State} (f : s.fsm = .idle) : s.EngineLegal := by
  simp [State.EngineLegal, f]

theorem State.engineLegal_of_xfer {s : State} (f : s.fsm = .xfer) (some : s.buf ≠ [])
    (hi : s.ctx = .init → s.buf = initBytes s.cfg s.bl s.stepReg)
    (hs : s.ctx = .slow → ∃ v ∈ s.cfg.slowCmds, s.buf = encodeByte s.bl 0 v 0) : s.EngineLegal :=
  ⟨fun _ => some, by simp [f], fun _ => hi, fun _ => hs⟩

theorem Status.code_le (st : Status) : st.code.toNat ≤ 5 := by cases st <;> decide

theorem sequence_nil (p : Config.Params) : Sequence p [] := ⟨Nat.zero_le _, nofun, rfl⟩

/-- A sequence that fits behind another keeps its shape there (R107). -/
theorem sequence_append {p : Config.Params} {a q : List Byte} {bl : Bit} (ha : Sequence p a) (hq : Composed bl q)
    (fits : a.length + q.length ≤ p.bufDepth) : Sequence p (a ++ q) := by
  obtain ⟨-, mode, shape⟩ := ha
  exact ⟨by simpa using fits, List.forall_mem_append.mpr ⟨mode, hq.writeMode⟩, handshake_append _ _ shape hq.shape⟩

section
variable {s : State}

theorem State.Sound.beginEdge (h : s.Sound) : s.beginEdge.Sound := { h with }

theorem State.Sound.resetAction (h : s.Sound) : s.resetAction.Sound :=
  { h with buffer := sequence_nil _, code := Status.code_le .ok }

theorem State.Sound.clearBuf (h : s.Sound) : s.clearBuf.Sound := { h with buffer := sequence_nil _ }

theorem State.Sound.pushBytes (h : s.Sound) {bl : Bit} {q : List Byte} (hq : Composed bl q)
    (fits : s.len + q.length ≤ s.cfg.bufDepth) : (s.pushBytes q).Sound :=
  { h with buffer := sequence_append h.buffer hq fits }

theorem State.Sound.setBl (h : s.Sound) (on : Bit) : (s.setBl on).Sound := { h with }

theorem State.Sound.setRow (h : s.Sound) (i : BitVec 3) (bm : Byte) : (s.setRow i bm).Sound := { h with }

theorem State.Sound.setStep (h : s.Sound) (k : Fin 8) : (s.setStep k).Sound := { h with }

theorem State.Sound.transact (h : s.Sound) (c : Ctx) : (s.transact c).Sound := { h with }

theorem State.Sound.startWait (h : s.Sound) (t : Nat) : (s.startWait t).Sound := { h with }

theorem State.Sound.tickWait (h : s.Sound) : s.tickWait.Sound := { h with }

theorem State.Sound.recordTransaction (h : s.Sound) (some : s.buf ≠ []) (n : Nat) : (s.recordTransaction n).Sound :=
  { h with record := List.forall_mem_append.mpr ⟨h.record, List.forall_mem_singleton.mpr ⟨some, h.buffer⟩⟩ }

/-- Ending a command in a sound state gives the invariant: its code is R211's, and FSM = IDLE. -/
theorem State.Sound.finish (h : s.Sound) (st : Status) : (s.finish st).Inv :=
  State.Sound.inv
    { h with
      code := st.code_le
      answers := List.forall_mem_append.mpr ⟨h.answers, List.forall_mem_singleton.mpr st.code_le⟩ }
    (State.engineLegal_of_idle rfl)

/-- BL or STEP written before the buffer is. -/
theorem State.Sound.before (h : s.Sound) {s' : State} (before : s' = s ∨ (∃ on, s' = s.setBl on) ∨ ∃ k, s' = s.setStep k) :
    s'.Sound ∧ s'.cfg = s.cfg := by
  rcases before with rfl | ⟨on, rfl⟩ | ⟨k, rfl⟩
  · exact ⟨h, rfl⟩
  · exact ⟨h.setBl on, rfl⟩
  · exact ⟨h.setStep k, rfl⟩

/-- The buffer written anew, which a sending command does (R57). -/
theorem State.Sound.rewrite (h : s.Sound) {bl : Bit} {q : List Byte} (hq : Composed bl q) (fits : q.length ≤ s.cfg.bufDepth) :
    (s.clearBuf.pushBytes q).Sound :=
  h.clearBuf.pushBytes hq (by simpa using fits)

/-- A wait begun with a count above 0 in a context that has a continuation keeps the invariant (R163). -/
theorem State.Inv.recordTransaction_startWait (h : s.Inv) (f : s.fsm = .xfer) (c : s.ctx ≠ .user) {t : Nat} (ht : 0 < t) (n : Nat) :
    ((s.recordTransaction n).startWait t).Inv := by
  have busy : s.fsm ≠ .idle := by simp [f]
  obtain ⟨some, -, hi, hs⟩ := h.engine
  refine ((h.sound.recordTransaction (some busy) n).startWait t).inv
    ⟨fun _ => some busy, fun _ => ⟨c, ?_⟩, fun _ => hi busy, fun _ => hs busy⟩
  obtain ⟨-, -, -, -, -, -, clk, -⟩ := h.params
  exact waitCycles_pos clk ht

end

/-- Every effect of a command on a sound state gives the invariant. -/
theorem Effect.inv {s t : State} (h : Effect s t) (hs : s.Sound) : t.Inv := by
  cases h with
  | finish st => exact hs.finish st
  | clear => exact hs.clearBuf.finish .ok
  | push q hq fits => exact (hs.pushBytes hq fits).finish .ok
  | flush some => exact (hs.transact .user).inv (State.engineLegal_of_xfer rfl some nofun nofun)
  | light on => exact (hs.setBl on).finish .ok
  | row i bm => exact (hs.setRow i bm).finish .ok
  | send s' before q c hq some fits hi hslow =>
    obtain ⟨hs', hcfg⟩ := hs.before before
    exact ((hs'.rewrite hq (hcfg ▸ fits)).transact c).inv (State.engineLegal_of_xfer rfl some hi hslow)
  | part s' before q hq fits =>
    obtain ⟨hs', hcfg⟩ := hs.before before
    exact (hs'.rewrite hq (hcfg ▸ fits)).finish .overflow

theorem State.Inv.beginEdge {s : State} (h : s.Inv) : s.beginEdge.Inv := h.sound.beginEdge.inv h.engine

/-- A cycle of a wait that is not its last (R163). -/
theorem State.Inv.tickWait {s : State} (h : s.Inv) (w : 1 < s.wcnt) : s.tickWait.Inv := by
  obtain ⟨some, hw, hi, hs⟩ := h.engine
  exact h.sound.tickWait.inv ⟨some, fun f => ⟨(hw f).1, Nat.sub_pos_of_lt w⟩, hi, hs⟩

/-- Every case of an edge keeps the invariant. A wait whose continuation no rule gives is none of its cases (log 12). -/
theorem EdgeShape.inv {s t : State} (h : EdgeShape s t) (hs : s.Inv) : t.Inv := by
  have begun : s.beginEdge.Inv := hs.beginEdge
  obtain ⟨some, hw, -, -⟩ := begun.engine
  cases h with
  | reset => exact begun.sound.resetAction.inv (State.engineLegal_of_idle rfl)
  | idle | request => exact begun
  | illegal => exact begun.sound.finish .illegal
  | command i t r f v d e => exact (effect_of_exec e).inv begun.sound
  | short r f => exact (begun.sound.recordTransaction (some (by simp [f])) _).finish .xferFail
  | sent r f => exact (begun.sound.recordTransaction (some (by simp [f])) _).finish .ok
  | sentSlow r f v n c =>
    obtain ⟨-, -, -, -, -, -, -, -, -, slow⟩ := hs.params
    exact begun.recordTransaction_startWait f (by simp [c]) slow _
  | sentInit r f v n c => exact begun.recordTransaction_startWait f (by simp [c]) (tInit_pos hs.params _) _
  | tick r f w => exact begun.tickWait w
  | waitedSlow | waitedLast => exact begun.sound.finish .ok
  | waitedInit t r f w c k e => exact (effect_of_initStep e).inv begun.sound
  | waitedOpen n r f w c | waitedOpenDone r f w c | waitedOpenInit k t r f w c => exact absurd c (hw f).1

/-- Settles O38: an edge has one of the cases of `EdgeShape`, and each keeps the invariant. -/
theorem stepKeepsInvariant : Obligations.StepKeepsInvariant := fun _ _ hs h => (step_shape h).inv hs

/-- The parameters are the reference ones; the buffer and the record are empty. -/
theorem reset_sound : State.reset.Sound :=
  ⟨by decide, sequence_nil _, Nat.zero_le _, nofun, nofun⟩

/-- Settles O37: the reset state is sound and in IDLE. -/
theorem invariantHoldsAtReset : Obligations.InvariantHoldsAtReset := reset_sound.inv (State.engineLegal_of_idle rfl)

end Sys2Proof.Machine

/-! The registers that R20 and R38 call meaningless. An operation reads none of CTX, STEP and WCNT before it writes it, so it commutes
with putting other values there; where a command ends or sends, what is left of the difference is hidden again. -/

namespace Sys2Proof.Machine

open Sys2Proof

/-- The state with other values in CTX, STEP and WCNT. -/
def State.withHidden (s : State) (x : Ctx) (k : Fin 8) (w : Nat) : State := { s with ctx := x, stepReg := k, wcnt := w }

/-- Both outcomes are next states, which differ in hidden registers at most. -/
def Alike (o o' : Outcome) : Prop := ∃ s' t', o = .next s' ∧ o' = .next t' ∧ SameButHidden s' t'

theorem alike_next {s t : State} (h : SameButHidden s t) : Alike (.next s) (.next t) := ⟨s, t, rfl, rfl, h⟩

theorem alike_ite {c : Prop} [Decidable c] {a b a' b' : Outcome} (h : Alike a b) (h' : Alike a' b') :
    Alike (if c then a else a') (if c then b else b') := by
  split
  · exact h
  · exact h'

section
variable (s : State) (x : Ctx) (k : Fin 8) (w : Nat)

theorem sameButHidden_of_idle (f : s.fsm = .idle) : SameButHidden s (s.withHidden x k w) :=
  ⟨rfl, fun h => absurd f h, fun h => absurd f h, fun h => by rw [f] at h; cases h⟩

/-- In XFER the context is visible, and in an INIT the step. -/
theorem sameButHidden_of_xfer (f : s.fsm = .xfer) (hx : x = s.ctx) (hk : s.ctx = .init → k = s.stepReg) :
    SameButHidden s (s.withHidden x k w) :=
  ⟨rfl, fun _ => hx, fun _ => hk, fun h => by rw [f] at h; cases h⟩

/-- In WAIT only the step of no INIT is hidden. -/
theorem sameButHidden_of_wait (hx : x = s.ctx) (hk : s.ctx = .init → k = s.stepReg) :
    SameButHidden s (s.withHidden x k s.wcnt) :=
  ⟨rfl, fun _ => hx, fun _ => hk, fun _ => rfl⟩

/-- A command that ends leaves the difference in IDLE. -/
theorem finish_alike (st : Status) : Alike (.next (s.finish st)) (.next ((s.withHidden x k w).finish st)) :=
  alike_next (sameButHidden_of_idle (s.finish st) x k w rfl)

/-- A command that sends writes CTX; an INIT must have written STEP. -/
theorem transact_alike (c : Ctx) (hk : c = .init → k = s.stepReg) :
    Alike (.next (s.transact c)) (.next ((s.withHidden x k w).transact c)) :=
  alike_next (sameButHidden_of_xfer (s.transact c) c k w rfl rfl hk)

/-- An appending command checks the buffer only. -/
theorem appendCommand_alike (q : List Byte) : Alike (appendCommand q s) (appendCommand q (s.withHidden x k w)) := by
  unfold appendCommand
  rcases Nat.lt_or_ge s.cfg.bufDepth (s.len + q.length) with h | h
  · rw [append_overflow h, append_overflow (s := s.withHidden x k w) h]
    exact finish_alike s x k w .overflow
  · rw [append_fits h, append_fits (s := s.withHidden x k w) h]
    exact finish_alike (s.pushBytes q) x k w .ok

/-- Several appends push the same bytes and end the same way. -/
theorem appendAll_withHidden (qs : List (List Byte)) : ∃ q,
    (appendAll qs s = .ok (s.pushBytes q) ∧ appendAll qs (s.withHidden x k w) = .ok ((s.pushBytes q).withHidden x k w)) ∨
    (appendAll qs s = .error (s.pushBytes q) ∧
      appendAll qs (s.withHidden x k w) = .error ((s.pushBytes q).withHidden x k w)) := by
  induction qs generalizing s with
  | nil => exact ⟨[], .inl (by simp [appendAll, State.pushBytes, State.withHidden])⟩
  | cons a qs ih =>
    rcases Nat.lt_or_ge s.cfg.bufDepth (s.len + a.length) with h | h
    · refine ⟨[], .inr ?_⟩
      rw [appendAll, appendAll, append_overflow h, append_overflow (s := s.withHidden x k w) h]
      simp [State.pushBytes, State.withHidden]
    · obtain ⟨q, hq⟩ := ih (s.pushBytes a)
      have hpush : (s.pushBytes a).pushBytes q = s.pushBytes (a ++ q) := by simp [State.pushBytes]
      refine ⟨a ++ q, ?_⟩
      rw [appendAll, appendAll, append_fits h, append_fits (s := s.withHidden x k w) h, ← hpush]
      exact hq

theorem sendCommand_alike (qs : List (List Byte)) (c : Ctx) (hk : c = .init → k = s.stepReg) :
    Alike (sendCommand qs c s) (sendCommand qs c (s.withHidden x k w)) := by
  have hclear : (s.withHidden x k w).clearBuf = s.clearBuf.withHidden x k w := rfl
  obtain ⟨q, ⟨e, e'⟩ | ⟨e, e'⟩⟩ := appendAll_withHidden s.clearBuf x k w qs
  · rw [sendCommand, sendCommand, hclear, e, e']
    exact transact_alike (s.clearBuf.pushBytes q) x k w c hk
  · rw [sendCommand, sendCommand, hclear, e, e']
    exact finish_alike (s.clearBuf.pushBytes q) x k w .overflow

/-- A step of INIT, its number just written. -/
theorem initStep_alike (j : Fin 8) : Alike (initStep (s.setStep j)) (initStep ((s.withHidden x k w).setStep j)) :=
  sendCommand_alike (s.setStep j) x j w _ .init fun _ => rfl

theorem writeCtx_ne_init (p : Config.Params) (rs h : Bit) (v : Byte) : writeCtx p rs h v ≠ .init := by
  unfold writeCtx; split <;> simp

theorem write_alike (rs h : Bit) (v : Byte) : Alike (write rs h v s) (write rs h v (s.withHidden x k w)) :=
  sendCommand_alike s x k w _ (writeCtx s.cfg rs h v) fun c => absurd c (writeCtx_ne_init _ _ _ _)

/-- No command reads a hidden register. -/
theorem exec_alike (i : Instr) : Alike (exec i s) (exec i (s.withHidden x k w)) := by
  cases i with
  | nop => exact finish_alike s x k w .ok
  | clrbuf => exact finish_alike s.clearBuf x k w .ok
  | nibC n | nibD n | putC v | putD v | putCH v => exact appendCommand_alike s x k w _
  | flush => exact alike_ite (finish_alike s x k w .ok) (transact_alike s x k w .user nofun)
  | writeC v | writeD v | writeCH v => exact write_alike s x k w _ _ v
  | setl on => exact alike_ite (sendCommand_alike (s.setBl on) x k w _ .user nofun) (finish_alike (s.setBl on) x k w .ok)
  | goto line col => exact alike_ite (finish_alike s x k w .badPos) (sendCommand_alike s x k w _ .user nofun)
  | ldrow idx bm => exact finish_alike (s.setRow idx bm) x k w .ok
  | defchar slot => exact alike_ite (finish_alike s x k w .badSlot) (sendCommand_alike s x k w _ .user nofun)
  | init => exact initStep_alike s x k w 0

theorem acceptWord_alike (v : Word) : Alike (acceptWord v s) (acceptWord v (s.withHidden x k w)) := by
  unfold acceptWord
  cases decode v with
  | some i => exact exec_alike s x k w i
  | none => exact finish_alike s x k w .illegal

/-- The answer's continuation reads CTX, in an INIT also STEP, and writes WCNT where it begins a wait (R56). -/
theorem completeTransaction_alike (n : Nat) (hk : s.ctx = .init → k = s.stepReg) :
    Alike (completeTransaction n s) (completeTransaction n (s.withHidden s.ctx k w)) := by
  refine alike_ite (finish_alike (s.recordTransaction n) s.ctx k w .xferFail) ?_
  have hx : (s.withHidden s.ctx k w).ctx = s.ctx := rfl
  rw [hx]
  cases hc : s.ctx with
  | user => exact finish_alike (s.recordTransaction n) .user k w .ok
  | slow =>
    exact alike_next (sameButHidden_of_wait ((s.recordTransaction n).startWait s.cfg.tSlow) .slow k hc.symm hk)
  | init =>
    rw [hk hc]
    exact alike_next (sameButHidden_of_wait ((s.recordTransaction n).startWait (tInit s.cfg s.stepReg)) .init _ hc.symm
      fun _ => rfl)

/-- The free end of a wait reads none of the three (log 12). -/
theorem openWaitEnd_alike (hc : s.ctx = .user) : Alike (openWaitEnd s) (openWaitEnd (s.withHidden .user k w)) := by
  have hd : (s.withHidden .user k w).draws = s.draws := rfl
  unfold openWaitEnd
  rw [hd]
  cases ctxOfDraw (Config.freeWaitEnd s.draws) with
  | user => exact alike_next (sameButHidden_of_wait (s.setWcnt _) .user k hc.symm (by simp [hc]))
  | slow => exact finish_alike s .user k w .ok
  | init => exact initStep_alike s .user k w _

/-- A wait's last edge reads CTX, and in an INIT also STEP (R150, R162). -/
theorem waitContinuation_alike (hk : s.ctx = .init → k = s.stepReg) :
    Alike (waitContinuation s) (waitContinuation (s.withHidden s.ctx k w)) := by
  have hx : (s.withHidden s.ctx k w).ctx = s.ctx := rfl
  unfold waitContinuation
  rw [hx]
  cases hc : s.ctx with
  | user => exact openWaitEnd_alike s k w hc
  | slow => exact finish_alike s .slow k w .ok
  | init =>
    rw [hk hc]
    exact alike_ite (initStep_alike s .init s.stepReg w _) (finish_alike s .init s.stepReg w .ok)

theorem waitEdge_alike (hk : s.ctx = .init → k = s.stepReg) : Alike (waitEdge s) (waitEdge (s.withHidden s.ctx k s.wcnt)) :=
  alike_ite (alike_next (sameButHidden_of_wait s.tickWait s.ctx k rfl hk)) (waitContinuation_alike s k s.wcnt hk)

end

/-- Which values the other state has where they are visible. -/
theorem SameButHidden.cases {s t : State} (h : SameButHidden s t) :
    ∃ x k w, t = s.withHidden x k w ∧ (s.fsm ≠ .idle → x = s.ctx) ∧ (s.fsm ≠ .idle → s.ctx = .init → k = s.stepReg) ∧
      (s.fsm = .wait → w = s.wcnt) :=
  ⟨t.ctx, t.stepReg, t.wcnt, h⟩

/-- One edge keeps the difference hidden. -/
theorem step_alike {s t : State} (h : SameButHidden s t) : Alike (step s) (step t) := by
  obtain ⟨x, k, w, rfl, hx, hk, hw⟩ := h.cases
  have hbegin : (s.withHidden x k w).beginEdge = s.beginEdge.withHidden x k w := rfl
  cases r : s.pins.rst with
  | true =>
    rw [step_of_rst r, step_of_rst (s := s.withHidden x k w) r]
    exact alike_next (sameButHidden_of_idle s.beginEdge.resetAction _ _ _ rfl)
  | false =>
    cases f : s.fsm with
    | idle =>
      rw [step_of_idle r f, step_of_idle (s := s.withHidden x k w) r f, hbegin]
      exact alike_ite (acceptWord_alike s.beginEdge x k w _) (alike_next (sameButHidden_of_idle s.beginEdge x k w f))
    | xfer =>
      have busy : s.fsm ≠ .idle := by simp [f]
      obtain rfl := hx busy
      rw [step_of_xfer r f, step_of_xfer (s := s.withHidden s.ctx k w) r f, hbegin]
      exact alike_ite (completeTransaction_alike s.beginEdge k w _ (hk busy))
        (alike_next (sameButHidden_of_xfer s.beginEdge s.ctx k w f rfl (hk busy)))
    | wait =>
      have busy : s.fsm ≠ .idle := by simp [f]
      obtain rfl := hx busy
      obtain rfl := hw f
      rw [step_of_wait r f, step_of_wait (s := s.withHidden s.ctx k s.wcnt) r f, hbegin]
      exact waitEdge_alike s.beginEdge k (hk busy)

/-- No output is a function of CTX, STEP or WCNT (R31 to R36). -/
theorem outputs_withHidden (s : State) (x : Ctx) (k : Fin 8) (w : Nat) : (s.withHidden x k w).outputs = s.outputs := rfl

/-- Settles O52: outputs read no hidden register, and one edge keeps the difference hidden. -/
theorem hiddenRegistersAreUnobservable : Obligations.HiddenRegistersAreUnobservable := fun s t h => by
  refine ⟨?_, step_alike h⟩
  obtain ⟨x, k, w, rfl, -⟩ := h.cases
  exact (outputs_withHidden s x k w).symm

end Sys2Proof.Machine

/-! Transactions and the buffer (20_memory.md R51, R55, R56, R58, R65). The record and the stability of the buffer follow from the
cases of an edge; the answer of the transport has one equation per case of R56. -/

namespace Sys2Proof.Machine

open Sys2Proof

theorem completeTransaction_of_short {n : Nat} {s : State} (h : n < s.len) :
    completeTransaction n s = .next ((s.recordTransaction n).finish .xferFail) := by
  simp [completeTransaction, shortTransfer, h]

theorem completeTransaction_of_user {n : Nat} {s : State} (h : s.len ≤ n) (c : s.ctx = .user) :
    completeTransaction n s = .next ((s.recordTransaction n).finish .ok) := by
  simp [completeTransaction, shortTransfer, Nat.not_lt.mpr h, c]

theorem completeTransaction_of_slow {n : Nat} {s : State} (h : s.len ≤ n) (c : s.ctx = .slow) :
    completeTransaction n s = .next ((s.recordTransaction n).startWait s.cfg.tSlow) := by
  simp [completeTransaction, shortTransfer, Nat.not_lt.mpr h, c]

theorem completeTransaction_of_init {n : Nat} {s : State} (h : s.len ≤ n) (c : s.ctx = .init) :
    completeTransaction n s = .next ((s.recordTransaction n).startWait (tInit s.cfg s.stepReg)) := by
  simp [completeTransaction, shortTransfer, Nat.not_lt.mpr h, c]

theorem step_of_answer {s : State} (r : s.pins.rst = false) (f : s.fsm = .xfer) (v : s.pins.busDone = true) :
    step s = completeTransaction s.busCount s.beginEdge := by
  rw [step_of_xfer r f, if_pos v]

/-- Settles O23: the answer's edge completes the transaction, by the equation of its count and context. -/
theorem answerFollowsContext : Obligations.AnswerFollowsContext := fun s r f v => by
  rw [step_of_answer r f v]
  exact ⟨fun n => completeTransaction_of_short n, fun n =>
    ⟨fun c => completeTransaction_of_user n c, fun c => completeTransaction_of_slow n c, fun c => completeTransaction_of_init n c⟩⟩

/-- No command puts a transaction on the record: that is the answer's edge alone (R55). -/
theorem Effect.transactions_eq {s t : State} (h : Effect s t) : t.transactions = s.transactions := by
  cases h with
  | send s' before | part s' before => rcases before with rfl | ⟨_, rfl⟩ | ⟨_, rfl⟩ <;> rfl
  | _ => rfl

/-- Settles O49: the four cases of an edge with an answer record the buffer and the count; no other case records anything. -/
theorem transactionsAreWholeBuffers : Obligations.TransactionsAreWholeBuffers := fun s t h => by
  cases step_shape h with
  | command i t r f v d e => exact .inl (effect_of_exec e).transactions_eq
  | waitedInit t r f w c k e => exact .inl (effect_of_initStep e).transactions_eq
  | waitedOpenInit k t r f w c e => exact .inl (effect_of_initStep e).transactions_eq
  | short r f v | sent r f v | sentSlow r f v | sentInit r f v => exact .inr ⟨r, f, v, rfl⟩
  | _ => exact .inl rfl

/-- A command completes or starts a transaction; only a transport's answer begins a wait (R56, R163). -/
theorem Effect.fsm_ne_wait {s t : State} (h : Effect s t) : t.fsm ≠ .wait := by
  cases h <;> nofun

/-- R65, case by case. The edges that rewrite the buffer, BL or a row are a reset, a command's in IDLE, and the last edge of a wait that
goes on as INIT, which does not stay in WAIT. -/
theorem EdgeShape.buffer_stable {s t : State} (h : EdgeShape s t) (r : s.pins.rst = false)
    (busy : s.fsm = .xfer ∨ (s.fsm = .wait ∧ t.fsm = .wait)) : t.buf = s.buf ∧ t.bl = s.bl ∧ t.row = s.row := by
  cases h with
  | reset rst => simp [r] at rst
  | idle _ f | illegal _ f | command _ _ _ f => simp [f] at busy
  | waitedInit t _ f w c k e => exact absurd (by simpa [f] using busy) (effect_of_initStep e).fsm_ne_wait
  | waitedOpenInit k t _ f w c e => exact absurd (by simpa [f] using busy) (effect_of_initStep e).fsm_ne_wait
  | _ => exact ⟨rfl, rfl, rfl⟩

/-- The transport reads the buffer's bytes while a request is up (R35). -/
theorem State.busRdByte_of_getElem? {s : State} {k : Nat} {b : Byte} (f : s.fsm = .xfer) (h : s.buf[k]? = some b) :
    s.busRdByte k = b := by
  obtain ⟨hk, rfl⟩ := List.getElem?_eq_some_iff.mp h
  simp [State.busRdByte, f, State.len, hk]

/-- Settles O50: `EdgeShape.buffer_stable` for the edge, `State.busRdByte_of_getElem?` for the read port. -/
theorem bufferIsStableInXferAndWithinWaits : Obligations.BufferIsStableInXferAndWithinWaits := by
  refine ⟨fun s t r h busy => (step_shape h).buffer_stable r busy, fun s k b f h => ?_⟩
  have read : s.busRdByte k = b := State.busRdByte_of_getElem? f h
  exact ⟨read, fun idx => (congrArg s.busRdByte idx).trans read⟩

end Sys2Proof.Machine

/-! The opcode table (30_encoding.md R71 to R74). Each row's `build` and `encode` are inverse on the row's words, and the rows are apart;
so the decoder inverts the encoder and the encoder the decoder. -/

namespace Sys2Proof

open Sys2Proof.Machine

theorem OpcodeRow.holds_iff (r : OpcodeRow) (w : Word) : r.holds w = true ↔ w &&& r.mask = r.pattern := by
  simp [OpcodeRow.holds]

/-- Two rows whose patterns differ at a bit that both masks look at. -/
def OpcodeRow.Apart (r r' : OpcodeRow) : Prop := r.pattern &&& r'.mask ≠ r'.pattern &&& r.mask

theorem OpcodeRow.Apart.not_holds {r r' : OpcodeRow} (apart : r.Apart r') {w : Word} (h : r.holds w = true) :
    ¬ r'.holds w = true := fun h' => by
  rw [OpcodeRow.holds_iff] at h h'
  apply apart
  rw [← h, ← h', BitVec.and_assoc, BitVec.and_assoc, BitVec.and_comm r.mask]

theorem opcodeRows_apart : ∀ j k : Fin opcodeRows.length, j ≠ k → opcodeRows[j].Apart opcodeRows[k] := by
  unfold OpcodeRow.Apart
  decide

/-- Settles O6: two different rows are apart, so a word of one is no word of the other. -/
theorem opcodeRowsNeverOverlap : Obligations.OpcodeRowsNeverOverlap := fun _ j k hj hk =>
  Decidable.byContradiction fun ne => (opcodeRows_apart j k ne).not_holds hj hk

theorem row_eq_of_holds {r r' : OpcodeRow} (hr : r ∈ opcodeRows) (hr' : r' ∈ opcodeRows) {w : Word} (h : r.holds w = true)
    (h' : r'.holds w = true) : r = r' := by
  obtain ⟨j, hj, rfl⟩ := List.getElem_of_mem hr
  obtain ⟨k, hk, rfl⟩ := List.getElem_of_mem hr'
  cases opcodeRowsNeverOverlap w ⟨j, hj⟩ ⟨k, hk⟩ h h'
  rfl

theorem holds_of_decode {w : Word} {i : Instr} (d : decode w = some i) : ∃ r ∈ opcodeRows, r.holds w = true ∧ r.build w = i := by
  obtain ⟨r, found, e⟩ := Option.map_eq_some_iff.mp d
  exact ⟨r, List.mem_of_find?_eq_some found, List.find?_some (p := fun x : OpcodeRow => x.holds w) found, e⟩

theorem decode_eq_none_iff {w : Word} : decode w = none ↔ ∀ r ∈ opcodeRows, ¬ r.holds w = true := by
  rw [decode, Option.map_eq_none_iff, List.find?_eq_none]

/-- As no other row holds of the word, the first row found is the row. -/
theorem decode_of_holds {r : OpcodeRow} (hr : r ∈ opcodeRows) {w : Word} (h : r.holds w = true) : decode w = some (r.build w) := by
  cases d : decode w with
  | none => exact absurd h (decode_eq_none_iff.mp d r hr)
  | some i =>
    obtain ⟨r', hr', h', rfl⟩ := holds_of_decode d
    rw [row_eq_of_holds hr hr' h h']

/-- A field taken from a word and put back at its place is the word under the field's mask. -/
theorem field_in_place (w : Word) (start k : Nat) :
    (w.extractLsb' start k).setWidth 16 <<< start = w &&& (BitVec.allOnes k).setWidth 16 <<< start := by
  ext j hj
  by_cases h : j < start
  · simp [h]
  · have bit : (w.extractLsb' start k).getLsbD (j - start) = (decide (j - start < k) && w[j]) := by
      rw [BitVec.getLsbD_extractLsb', Nat.add_sub_of_le (Nat.not_lt.mp h), BitVec.getLsbD_eq_getElem hj]
    simp [h, bit, Bool.and_comm]

theorem low_field_in_place (w : Word) (k : Nat) : (w.extractLsb' 0 k).setWidth 16 = w &&& (BitVec.allOnes k).setWidth 16 := by
  simpa using field_in_place w 0 k

/-- What a row builds from a word is encoded as the row's pattern with the word's operand bits: the operands are exactly the bits
outside the mask (R71, R73). -/
theorem encode_build (w : Word) : ∀ r ∈ opcodeRows, encode (r.build w) = r.pattern ||| (w &&& ~~~r.mask) := by
  simp only [opcodeRows, List.cons_append, List.nil_append, List.forall_mem_cons, List.not_mem_nil, false_implies, implies_true,
    and_true]
  simp only [encode, Word.n, Word.v, Word.on, Word.line, Word.col, Word.idx, Word.bm, Word.slot, low_field_in_place, field_in_place,
    BitVec.or_assoc, ← BitVec.and_or_distrib_left]
  simp

/-- A word of a row is the encoding of the row's command. -/
theorem encode_build_of_holds {r : OpcodeRow} (hr : r ∈ opcodeRows) {w : Word} (h : r.holds w = true) : encode (r.build w) = w := by
  rw [encode_build w r hr, ← (r.holds_iff w).mp h, ← BitVec.and_or_distrib_left, BitVec.or_not_self, BitVec.and_allOnes]

/-- Settles O5: a word decodes by a row that holds of it, and is the encoding of that row's command. -/
theorem encodeInvertsDecode : Obligations.EncodeInvertsDecode := fun w i d => by
  obtain ⟨r, hr, h, rfl⟩ := holds_of_decode d
  exact encode_build_of_holds hr h

theorem pattern_and_mask : ∀ r ∈ opcodeRows, r.pattern &&& r.mask = r.pattern := by decide

/-- The encoding of what a row builds, from any word, is a word of the row. -/
theorem holds_encode_build {r : OpcodeRow} (hr : r ∈ opcodeRows) (w : Word) : r.holds (encode (r.build w)) = true := by
  have operands_masked : w &&& ~~~r.mask &&& r.mask = 0 := by simp [BitVec.and_assoc]
  rw [OpcodeRow.holds_iff, encode_build w r hr, BitVec.and_or_distrib_right, pattern_and_mask r hr, operands_masked]
  exact BitVec.or_zero

/-- A field placed over zeros is read back from its place. -/
theorem field_of_or {k : Nat} (q : Word) (x : BitVec k) {start : Nat} (fits : start + k ≤ 16) (zero : q.extractLsb' start k = 0) :
    (q ||| x.setWidth 16 <<< start).extractLsb' start k = x := by
  rw [BitVec.extractLsb'_or, zero]
  ext j hj
  have inside : start + j < 16 := by omega
  simp [inside, hj]

theorem low_field_of_or {k : Nat} (q : Word) (x : BitVec k) (zero : q.extractLsb' 0 k = 0) (fits : k ≤ 16 := by decide) :
    (q ||| x.setWidth 16).extractLsb' 0 k = x := by
  simpa using field_of_or q x (start := 0) (by omega) zero

/-- A field placed in a word leaves zeros below it. -/
theorem field_zero_below {k : Nat} (x : BitVec k) (start : Nat) : (x.setWidth 16 <<< start).extractLsb' 0 start = 0 := by
  ext j hj
  simp [hj]

/-- A field at bit 0 leaves zeros above it. -/
theorem low_field_zero_above {k : Nat} (x : BitVec k) (k' : Nat) : (x.setWidth 16).extractLsb' k k' = 0 := by
  ext j hj
  simp

/-! The two operands of GOTO and LDROW: a byte at bit 0 and another at bit 8. -/

section
variable {k : Nat} (p : Word) (x : BitVec k) (y : Byte)

theorem low_operand (zero : p.extractLsb' 0 8 = 0) : (p ||| x.setWidth 16 <<< 8 ||| y.setWidth 16).extractLsb' 0 8 = y :=
  low_field_of_or _ y (by rw [BitVec.extractLsb'_or, zero, field_zero_below]; rfl)

theorem high_operand (zero : p.extractLsb' 8 k = 0) (fits : 8 + k ≤ 16 := by decide) :
    (p ||| x.setWidth 16 <<< 8 ||| y.setWidth 16).extractLsb' 8 k = x := by
  rw [BitVec.extractLsb'_or, field_of_or p x fits zero, low_field_zero_above]
  exact BitVec.or_zero

end

/-- Every command is what its row builds from its own encoding: the row reads each operand where `encode` puts it. -/
theorem build_encode (i : Instr) : ∃ r ∈ opcodeRows, r.build (encode i) = i := by
  have row (k : Fin 16) (h : (opcodeRows[k.val]'k.isLt).build (encode i) = i) : ∃ r ∈ opcodeRows, r.build (encode i) = i :=
    ⟨_, List.getElem_mem _, h⟩
  cases i with
  | nop => exact row 0 rfl
  | clrbuf => exact row 1 rfl
  | nibC n => exact row 2 (congrArg Instr.nibC (low_field_of_or 0x2000 n rfl))
  | nibD n => exact row 3 (congrArg Instr.nibD (low_field_of_or 0x2100 n rfl))
  | putC v => exact row 4 (congrArg Instr.putC (low_field_of_or 0x3000 v rfl))
  | putD v => exact row 5 (congrArg Instr.putD (low_field_of_or 0x3100 v rfl))
  | putCH v => exact row 6 (congrArg Instr.putCH (low_field_of_or 0x3200 v rfl))
  | flush => exact row 7 rfl
  | writeC v => exact row 8 (congrArg Instr.writeC (low_field_of_or 0x5000 v rfl))
  | writeD v => exact row 9 (congrArg Instr.writeD (low_field_of_or 0x5100 v rfl))
  | writeCH v => exact row 10 (congrArg Instr.writeCH (low_field_of_or 0x5200 v rfl))
  | setl on => exact row 11 (congrArg Instr.setl (low_field_of_or 0x6000 on rfl))
  | goto line col =>
    exact row 12 (congrArg₂ Instr.goto (high_operand 0x7000 line col rfl) (low_operand 0x7000 line col rfl))
  | ldrow idx bm =>
    exact row 13 (congrArg₂ Instr.ldrow (high_operand 0x8000 idx bm rfl) (low_operand 0x8000 idx bm rfl))
  | defchar slot => exact row 14 (congrArg Instr.defchar (low_field_of_or 0x9000 slot rfl))
  | init => exact row 15 rfl

/-- Settles O4: the row that builds the command from its encoding holds of that encoding, and no other row does. -/
theorem decodeInvertsEncode : Obligations.DecodeInvertsEncode := fun i => by
  obtain ⟨r, hr, e⟩ := build_encode i
  have h : r.holds (encode i) = true := e ▸ holds_encode_build hr (encode i)
  rw [decode_of_holds hr h, e]

/-- Settles O3: sixteen closed evaluations of the decoder. -/
theorem wordsOfTheSpecDecode : Obligations.WordsOfTheSpecDecode := by
  unfold Obligations.WordsOfTheSpecDecode
  decide

end Sys2Proof

/-! ILLEGAL words (30_encoding.md R75 to R78). A row's mask keeps the high bits, so its words are consecutive numbers; opcode by opcode,
the words between the rows are those R75 names. -/

namespace Sys2Proof

open Sys2Proof.Machine

/-- How many words a row has. -/
def OpcodeRow.span (r : OpcodeRow) : Nat := 0x10000 - r.mask.toNat

/-- A word is one of the row's consecutive words, the pattern the first. -/
def OpcodeRow.InRange (r : OpcodeRow) (w : Word) : Prop := r.pattern.toNat ≤ w.toNat ∧ w.toNat < r.pattern.toNat + r.span

/-- Keeping the bits from bit `k` up. -/
theorem toNat_and_allOnes_shiftLeft {n : Nat} (w : BitVec n) (k : Nat) :
    (w &&& BitVec.allOnes n <<< k).toNat = w.toNat / 2 ^ k * 2 ^ k := by
  have cut : w &&& BitVec.allOnes n <<< k = w >>> k <<< k := by
    ext j hj
    by_cases h : j < k
    · simp [h]
    · have above : k + (j - k) = j := by omega
      simp [h, above, BitVec.getLsbD_eq_getElem hj]
  have small : w.toNat / 2 ^ k * 2 ^ k < 2 ^ n := Nat.lt_of_le_of_lt (Nat.div_mul_le_self ..) w.isLt
  rw [cut, BitVec.toNat_shiftLeft, BitVec.toNat_ushiftRight, Nat.shiftRight_eq_div_pow, Nat.shiftLeft_eq, Nat.mod_eq_of_lt small]

/-- The operands of a row are its low bits. -/
theorem row_keeps_high_bits : ∀ r ∈ opcodeRows, ∃ k : Fin 16,
    r.mask = BitVec.allOnes 16 <<< k.val ∧ r.span = 2 ^ k.val ∧ r.pattern.toNat % 2 ^ k.val = 0 := by
  decide

theorem holds_iff_inRange {r : OpcodeRow} (hr : r ∈ opcodeRows) (w : Word) : r.holds w = true ↔ r.InRange w := by
  obtain ⟨k, mask, span, aligned⟩ := row_keeps_high_bits r hr
  have pos : 0 < 2 ^ k.val := Nat.two_pow_pos _
  obtain ⟨q, hq⟩ := Nat.dvd_of_mod_eq_zero aligned
  rw [OpcodeRow.holds_iff, ← BitVec.toNat_inj, mask, toNat_and_allOnes_shiftLeft, OpcodeRow.InRange, span, hq,
    Nat.mul_comm _ q, Nat.mul_left_inj pos.ne', Nat.div_eq_iff pos]
  omega

/-- Bits 15-12 of a row's words (R70). -/
def OpcodeRow.opcode (r : OpcodeRow) : BitVec 4 := r.pattern.extractLsb' 12 4

theorem opcode_in_mask : ∀ r ∈ opcodeRows, r.mask.extractLsb' 12 4 = BitVec.allOnes 4 := by decide

theorem opcode_of_holds {r : OpcodeRow} (hr : r ∈ opcodeRows) {w : Word} (h : r.holds w = true) : r.opcode = w.extractLsb' 12 4 := by
  rw [OpcodeRow.opcode, ← (r.holds_iff w).mp h, BitVec.extractLsb'_and, opcode_in_mask r hr, BitVec.and_allOnes]

/-- The rows of one opcode. -/
def rowsOfOpcode (op : BitVec 4) : List OpcodeRow := opcodeRows.filter (·.opcode == op)

/-- Only the rows of a word's opcode matter to it. -/
theorem decode_eq_none_iff_inRange (w : Word) : decode w = none ↔ ∀ r ∈ rowsOfOpcode (w.extractLsb' 12 4), ¬ r.InRange w := by
  rw [decode_eq_none_iff]
  constructor
  · intro h r hr
    obtain ⟨hr, -⟩ := List.mem_filter.mp hr
    rw [← holds_iff_inRange hr]
    exact h r hr
  · intro h r hr holds
    have same : r ∈ rowsOfOpcode (w.extractLsb' 12 4) := List.mem_filter.mpr ⟨hr, by simpa using opcode_of_holds hr holds⟩
    exact h r same ((holds_iff_inRange hr w).mp holds)

/-- Opcode by opcode, R75's bits are set exactly in the words outside the opcode's rows. -/
theorem illegalWord_iff_inRange (w : Word) : illegalWord w = true ↔ ∀ r ∈ rowsOfOpcode (w.extractLsb' 12 4), ¬ r.InRange w := by
  have bound : w.toNat < 65536 := w.isLt
  obtain ⟨op, opcode⟩ : ∃ op : Fin 16, w.extractLsb' 12 4 = BitVec.ofFin op := ⟨_, rfl⟩
  have high := congrArg BitVec.toNat opcode
  rw [BitVec.extractLsb'_toNat, Nat.shiftRight_eq_div_pow, BitVec.toNat_ofFin] at high
  unfold illegalWord reservedBitSet
  rw [opcode]
  fin_cases op <;>
    simp [rowsOfOpcode, opcodeRows, OpcodeRow.opcode, OpcodeRow.InRange, OpcodeRow.span, ← BitVec.toNat_inj,
      Nat.shiftRight_eq_div_pow] at high ⊢
  all_goals omega

theorem decode_eq_none_iff_illegalWord (w : Word) : decode w = none ↔ illegalWord w = true := by
  rw [decode_eq_none_iff_inRange, illegalWord_iff_inRange]

/-- Settles O7: `decode_eq_none_iff_illegalWord`, as an equation of Booleans. -/
theorem reservedBitsAreNeverIgnored : Obligations.ReservedBitsAreNeverIgnored := fun w => by
  rw [Bool.eq_iff_iff, Option.isNone_iff_eq_none, decode_eq_none_iff_illegalWord]

end Sys2Proof

namespace Sys2Proof.Machine

open Sys2Proof

theorem acceptWord_of_illegalWord {w : Word} (h : illegalWord w = true) (s : State) :
    acceptWord w s = .next (s.finish .illegal) := by
  rw [acceptWord, (decode_eq_none_iff_illegalWord w).mpr h, State.raise_eq]

/-- Settles O9: the edge accepts the word, the word is ILLEGAL, and `finish` writes STATUS and the response only. -/
theorem illegalWordsOnlyWriteStatus : Obligations.IllegalWordsOnlyWriteStatus := fun s r f v h => by
  rw [step_of_idle r f, if_pos v, acceptWord_of_illegalWord h, State.finish, State.beginEdge, f]
  rfl

end Sys2Proof.Machine

/-! The assembler (30_encoding.md R77, R80). -/

namespace Sys2Proof.Machine

open Sys2Proof

/-- A line is well formed when its mnemonic is not refused and its operands are one by one below the mnemonic's bounds. -/
theorem wf_line_iff (l : AsmLine) : l.wf = true ↔ ∃ bs, l.mnemonic.bounds = some bs ∧ List.Forall₂ (· < ·) l.operands bs := by
  unfold AsmLine.wf
  cases l.mnemonic.bounds with
  | none => simp
  | some bs => simp [List.forall₂_iff_zip]

theorem assemble_line (i : Instr) : assemble i.line = some i := by
  have wf : i.line.wf = true := Instr.wf_eq_true i
  rw [assemble, if_pos wf]
  cases i with
  | nop | clrbuf | flush | init => rfl
  | nibC x | nibD x | putC x | putD x | putCH x | writeC x | writeD x | writeCH x | setl x | defchar x => simp [Instr.line]
  | goto x y | ldrow x y => simp [Instr.line]

/-- A well-formed line has as many operands as its mnemonic's command, and each survives the cut to its field's width. -/
theorem assemble_of_wf {l : AsmLine} (h : l.wf = true) : ∃ i, assemble l = some i ∧ i.line = l := by
  obtain ⟨bs, bounds, below⟩ := (wf_line_iff l).mp h
  obtain ⟨m, ops⟩ := l
  cases m with
  | putDH | writeDH => cases bounds
  | nop | clrbuf | flush | init =>
    cases bounds
    cases below
    exact ⟨_, if_pos h, rfl⟩
  | nibC | nibD | putC | putD | putCH | writeC | writeD | writeCH | setl | defchar =>
    cases bounds
    obtain _ | ⟨hx, _ | _⟩ := below
    exact ⟨_, if_pos h, by simp [Instr.line, Nat.mod_eq_of_lt hx]⟩
  | goto | ldrow =>
    cases bounds
    obtain _ | ⟨hx, _ | ⟨hy, _ | _⟩⟩ := below
    exact ⟨_, if_pos h, by simp [Instr.line, Nat.mod_eq_of_lt hx, Nat.mod_eq_of_lt hy]⟩

/-- Settles O58: `assemble_line` and `assemble_of_wf` on well-formed lines; `assemble` asks first whether the line is one. -/
theorem assemblerIsExact : Obligations.AssemblerIsExact :=
  ⟨fun i => ⟨Instr.wf_eq_true i, assemble_line i⟩, fun _ => assemble_of_wf, fun _ h => if_neg (Bool.not_eq_true _ ▸ h)⟩

end Sys2Proof.Machine

/-! DEFGLYPH (30_encoding.md R81; 44_cgram.md R180). -/

namespace Sys2Proof.Machine

open Sys2Proof

/-- The state after `n` LDROWs that leave `row` in the row registers. -/
def State.staged (s : State) (row : Vector Byte 8) (n : Nat) : State :=
  { s with row := row, status := 0, fsm := .idle, rspValid := true, responses := s.responses ++ List.replicate n 0 }

theorem State.staged_staged (s : State) (v v' : Vector Byte 8) (m n : Nat) : (s.staged v m).staged v' n = s.staged v' (m + n) := by
  simp [State.staged, List.replicate_append_replicate]

theorem exec_ldrow (k : BitVec 3) (b : Byte) (s : State) :
    exec (.ldrow k b) s = .next (s.staged (s.row.set k.toNat b k.isLt) 1) := rfl

/-- The row registers with bytes written one after another from register `k` on. -/
def writeRows : Nat → List Byte → Vector Byte 8 → Vector Byte 8
  | _, [], v => v
  | k, b :: bs, v => writeRows (k + 1) bs (v.set (BitVec.ofNat 3 k).toNat b (BitVec.isLt _))

theorem execAll_ldrows : ∀ (k : Nat) (b : Byte) (bs : List Byte) (s : State),
    execAll (ldrows k ((b :: bs).map BitVec.toNat)) s = .next (s.staged (writeRows k (b :: bs) s.row) (bs.length + 1))
  | k, b, [], s => by simp [ldrows, execAll, exec_ldrow, writeRows]
  | k, b, c :: cs, s => by
    rw [List.map_cons, ldrows, execAll, exec_ldrow, BitVec.ofNat_toNat, BitVec.setWidth_eq]
    dsimp only
    rw [execAll_ldrows (k + 1) c cs, State.staged_staged, Nat.add_comm 1]
    rfl

/-- The registers below `k` keep their bytes; those from `k` on take the list's as far as it goes. -/
theorem writeRows_getElem : ∀ (k : Nat) (bs : List Byte) (v : Vector Byte 8) (j : Nat) (hj : j < 8), k + bs.length ≤ 8 →
    (writeRows k bs v)[j] = if j < k then v[j] else bs.getD (j - k) v[j]
  | k, [], v, j, hj, _ => by simp [writeRows]
  | k, b :: bs, v, j, hj, fits => by
    rw [List.length_cons] at fits
    have index : (BitVec.ofNat 3 k).toNat = k := Nat.mod_eq_of_lt (by omega)
    rw [writeRows, writeRows_getElem (k + 1) bs _ j hj (by omega)]
    rcases Nat.lt_trichotomy j k with below | rfl | above
    · simp [index, below, below.ne', Nat.lt_succ_of_lt below]
    · simp [index]
    · have rest : j - k = j - (k + 1) + 1 := by omega
      simp [index, above.ne, above.not_gt, Nat.not_lt.mpr above, rest]

/-- Eight bytes from register 0 on replace all the rows. -/
theorem writeRows_all (r v : Vector Byte 8) : writeRows 0 r.toList v = r := by
  ext j hj
  rw [writeRows_getElem _ _ _ _ hj (by simp)]
  simp [hj]

/-- Settles O59: the eight LDROWs one after another, and what they write in all. -/
theorem defglyphStagesItsRows : Obligations.DefglyphStagesItsRows := fun s slot r => by
  refine ⟨rfl, ?_⟩
  have length : r.toList.length = 8 := r.length_toList
  obtain ⟨b, bs, e⟩ : ∃ b bs, r.toList = b :: bs := List.exists_cons_of_length_eq_add_one length
  have count : bs.length + 1 = 8 := by simpa [e] using length
  rw [e, execAll_ldrows, count, ← e, writeRows_all]
  rfl

end Sys2Proof.Machine

/-! The expander byte and its inverses (40_expander_byte.md R100, R105, R106, R109). -/

namespace Sys2Proof.Machine

open Sys2Proof

/-- Settles O34: the four fields of a composition are shifted to places that do not meet. -/
theorem expanderByteLayout : Obligations.ExpanderByteLayout := fun n en bl rs => by
  have nibble (j : Fin 4) : (ebyte n en bl rs).getLsbD (j.val + 4) = n.getLsbD j.val := by
    simp [ebyte, show j.val + 4 < 8 by omega]
  exact ⟨by simp [ebyte], by simp [ebyte], by simp [ebyte], by simp [ebyte], nibble⟩

/-- Settles O35: each bit of the composition is the bit of `b` its field was read from, and bit 1 is 0 in both. -/
theorem fieldDecodeFindsTheComposition : Obligations.FieldDecodeFindsTheComposition := fun b => by
  refine ⟨by rw [BitVec.getLsbD_eq_extractLsb', beq_iff_eq]; rfl, fun write => BitVec.eq_of_getLsbD_eq fun i hi => ?_⟩
  obtain ⟨rs, rw, en, bl, nibble⟩ :=
    expanderByteLayout (decodeFields b).nib (decodeFields b).en (decodeFields b).bl (decodeFields b).rs
  match i with
  | 0 => exact rs.trans (by simp [decodeFields])
  | 1 => exact rw.trans write.symm
  | 2 => exact en.trans (by simp [decodeFields])
  | 3 => exact bl.trans (by simp [decodeFields])
  | j + 4 =>
    have hj : j < 4 := by omega
    exact (nibble ⟨j, hj⟩).trans (by simp [decodeFields, highNibble, hj, Nat.add_comm])

@[simp] theorem highNibble_ebyte (n : Nibble) (en bl rs : Bit) : highNibble (ebyte n en bl rs) = n :=
  congrArg ByteFields.nib (decodeFields_ebyte n en bl rs)

@[simp] theorem lowNibble_toNat (v : Byte) : (lowNibble v).toNat = v.toNat % 16 := by
  simp [lowNibble]

/-- Pair decode gives `v` on any two bytes whose high nibbles are the nibbles of `v` (R106). -/
theorem decodePair_of_nibbles {a b v : Byte} (high : highNibble a = highNibble v) (low : highNibble b = lowNibble v) :
    decodePair a b = v := by
  have high : a.toNat / 16 = v.toNat / 16 := by simpa using congrArg BitVec.toNat high
  have low : b.toNat / 16 = v.toNat % 16 := by simpa using congrArg BitVec.toNat low
  apply BitVec.eq_of_toNat_eq
  rw [decodePair_toNat, high, low, Nat.div_add_mod]

/-- Settles O36: the bytes of an encoding carry the nibbles of the value, whatever their Enable is. -/
theorem valuesSurviveEncoding : Obligations.ValuesSurviveEncoding := fun bl rs v => by
  have decoded (en : Bit) : decodePair (ebyte (highNibble v) en bl rs) (ebyte (lowNibble v) en bl rs) = v :=
    decodePair_of_nibbles (highNibble_ebyte ..) (highNibble_ebyte ..)
  exact ⟨⟨_, _, _, _, rfl, decoded 0, decoded 1⟩, _, _, rfl, highNibble_ebyte ..⟩

end Sys2Proof.Machine

/-! What the buffer holds (40_expander_byte.md R101, R102, R107, R108). `step_bufferChange` says once how an edge can change BUF; write
mode, handshake shape and uniform backlight are each kept because every composed sequence has them and appending does. -/

namespace Sys2Proof.Machine

open Sys2Proof

theorem composed_nil (bl : Bit) : Composed bl [] := ⟨nofun, nofun, rfl⟩

/-- How BUF and BL change: BUF is kept, and then only a SETL that sends nothing can change BL; or BUF is lengthened by a sequence
composed with BL (R101); or it is written anew, composed with the BL of then. -/
def BufferChange (s t : State) : Prop :=
  (t.buf = s.buf ∧ (t.bl = s.bl ∨ s.cfg.setlightEmits = false)) ∨
  (∃ q, Composed s.bl q ∧ t.buf = s.buf ++ q ∧ t.bl = s.bl) ∨
  Composed t.bl t.buf

theorem bufferChange_of_kept {s t : State} (buf : t.buf = s.buf) (bl : t.bl = s.bl) : BufferChange s t := .inl ⟨buf, .inl bl⟩

theorem bufferChange_of_composed {s t : State} (h : Composed t.bl t.buf) : BufferChange s t := .inr (.inr h)

theorem Effect.bufferChange {s t : State} (h : Effect s t) : BufferChange s t := by
  cases h with
  | finish | flush | row => exact bufferChange_of_kept rfl rfl
  | light on silent => exact .inl ⟨rfl, .inr silent⟩
  | clear => exact bufferChange_of_composed (composed_nil _)
  | push q hq => exact .inr (.inl ⟨q, hq, rfl, rfl⟩)
  | send s' _ q _ hq | part s' _ q hq => exact bufferChange_of_composed hq

theorem EdgeShape.bufferChange {s t : State} (h : EdgeShape s t) : BufferChange s t := by
  cases h with
  | reset => exact bufferChange_of_composed (composed_nil _)
  | command i t r f v d e => exact (effect_of_exec e).bufferChange
  | waitedInit t r f w c k e => exact (effect_of_initStep e).bufferChange
  | waitedOpenInit k t r f w c e => exact (effect_of_initStep e).bufferChange
  | _ => exact bufferChange_of_kept rfl rfl

theorem step_bufferChange {s t : State} (h : step s = .next t) : BufferChange s t := (step_shape h).bufferChange

/-- Settles O46: bit 1 is 0 by the layout of a composition, and each way BUF changes keeps write mode. -/
theorem bufferStaysInWriteMode : Obligations.BufferStaysInWriteMode := by
  refine ⟨fun n en bl rs => ?_, fun s t mode h => ?_⟩
  · obtain ⟨-, rw, -⟩ := expanderByteLayout n en bl rs
    exact rw
  · rcases step_bufferChange h with ⟨buf, -⟩ | ⟨q, hq, buf, -⟩ | hq
    · exact buf ▸ mode
    · exact buf ▸ List.forall_mem_append.mpr ⟨mode, hq.writeMode⟩
    · exact hq.writeMode

theorem latch_en {b c : Byte} (h : latches b c = true) : (decodeFields c).en = 0 := by
  simp only [latches, Bool.and_eq_true, beq_iff_eq] at h
  tauto

/-- In handshake shape a byte with Enable = 1 is followed at once by its latch byte (R107): SETL bytes and latch bytes have Enable = 0,
so such a byte heads a pair. -/
theorem latch_follows_setup {q : List Byte} (shape : handshake q = true) {k : Nat} {b : Byte} (hb : q[k]? = some b)
    (setup : (decodeFields b).en = 1) : ∃ c, q[k + 1]? = some c ∧ latches b c = true := by
  induction q using handshake.induct generalizing k with
  | case1 => simp at hb
  | case2 x =>
    have low : (decodeFields x).en = 0 := setlByte_en shape
    match k with
    | 0 => cases hb; simp [low] at setup
    | k + 1 => simp at hb
  | case3 x c rest en ih =>
    rw [handshake, if_pos en, Bool.and_eq_true] at shape
    obtain ⟨pair, shape⟩ := shape
    match k with
    | 0 => cases hb; exact ⟨c, rfl, pair⟩
    | 1 => cases hb; simp [latch_en pair] at setup
    | k + 2 => exact ih shape hb
  | case4 x c rest en ih =>
    rw [handshake, if_neg en, Bool.and_eq_true] at shape
    obtain ⟨-, shape⟩ := shape
    match k with
    | 0 => cases hb; exact absurd setup en
    | k + 1 => exact ih shape hb

/-- Settles O47: each way BUF changes keeps handshake shape, and `latch_follows_setup` reads the latch byte off that shape. -/
theorem setupIsFollowedByLatch : Obligations.SetupIsFollowedByLatch := fun s t shape h => by
  have kept : handshake t.buf = true := by
    rcases step_bufferChange h with ⟨buf, -⟩ | ⟨q, hq, buf, -⟩ | hq
    · exact buf ▸ shape
    · exact buf ▸ handshake_append _ _ shape hq.shape
    · exact hq.shape
  exact ⟨kept, fun _ _ => latch_follows_setup kept⟩

/-- Settles O48: a reset empties BUF; on any other edge, where BUF is kept the hypothesis rules out a change of BL under it. -/
theorem backlightIsUniform : Obligations.BacklightIsUniform := fun s t uniform h allowed => by
  cases r : s.pins.rst with
  | true =>
    rw [step_of_rst r] at h
    cases h
    exact (composed_nil _).carries
  | false =>
    rcases step_bufferChange h with ⟨buf, bl | silent⟩ | ⟨q, hq, buf, bl⟩ | hq
    · rw [buf, bl]; exact uniform
    · have bl : t.bl = s.bl := by simpa [silent, r] using allowed
      rw [buf, bl]; exact uniform
    · rw [buf, bl]; exact List.forall_mem_append.mpr ⟨uniform, hq.carries⟩
    · exact hq.carries

end Sys2Proof.Machine

/-! Presented commands and transactions over several edges (10_state.md R32; 20_memory.md R55; 60_exceptions.md R227), and what the
states that the statements name are in terms of the operations. -/

namespace Sys2Proof.Machine

open Sys2Proof

/-- A command presented in IDLE runs on the state its edge begins with. -/
theorem step_of_presents {s : State} {p : Pins} {ps : List Pins} {w : Word} {i : Instr} (f : s.fsm = .idle) (hp : p.Presents w)
    (hin : s.inputs = p :: ps) (d : decode w = some i) : step s = exec i s.beginEdge := by
  obtain ⟨r, v, rfl⟩ := hp
  obtain rfl : s.pins = p := State.pins_of_inputs hin
  rw [step_of_idle r f, if_pos v, acceptWord_of_decode d]

/-- A sending command whose bytes fit has them as its buffer and requests their transaction (R57). -/
theorem sendCommand_eq_sending {qs : List (List Byte)} {s : State} (c : Ctx) (h : qs.flatten.length ≤ s.cfg.bufDepth) :
    sendCommand qs c s = .next (s.sending qs.flatten c) :=
  sendCommand_fits c h

theorem State.edges_zero (s : State) : s.edges 0 = s := by
  simp [State.edges]

theorem State.edge_edges (s : State) (n : Nat) : s.edge.edges n = s.edges (n + 1) := by
  simp [State.edges, State.edge, Nat.add_assoc, Nat.add_comm 1]

theorem State.beginEdge_edges (s : State) (n : Nat) : (s.edges n).beginEdge = s.edges (n + 1) := by
  simp [State.edges, State.beginEdge, Nat.add_assoc]

/-- Without an answer and without a reset the engine stays in XFER, with nothing changed (R227). -/
theorem run_unanswered (n : Nat) (s : State) (f : s.fsm = .xfer)
    (quiet : ∀ k < n, (s.pinsAt k).rst = false ∧ (s.pinsAt k).busDone = false) : run n s = .next (s.edges n) := by
  induction n generalizing s with
  | zero => rw [State.edges_zero, run]
  | succ n ih =>
    obtain ⟨r, v⟩ := quiet 0 n.succ_pos
    rw [pinsAt_zero] at r v
    have first : step s = .next s.edge := by
      rw [step_of_xfer r f, v]
      rfl
    rw [run_succ_next first, ih s.edge f fun k hk => pinsAt_succ s k ▸ quiet (k + 1) (Nat.succ_lt_succ hk), State.edge_edges]

section
variable {s : State} {e : Exchange} {rest : List Pins} (f : s.fsm = .xfer)
  (held : ∀ q ∈ e.held, q.rst = false ∧ q.busDone = false) (hin : s.inputs = e.pins ++ rest)
include f held hin

/-- Up to its answer a transaction changes nothing. -/
theorem run_held {k : Nat} (hk : k ≤ e.held.length) : run k s = .next (s.edges k) :=
  run_unanswered k s f fun _ hj => held _ (pinsAt_mem (by simpa [Exchange.pins] using hin) (Nat.lt_of_lt_of_le hj hk))

/-- The edge of the answer completes the transaction with the count of the exchange (R56). -/
theorem run_answer (r : e.answer.rst = false) (v : e.answer.busDone = true) :
    run (e.held.length + 1) s = completeTransaction (e.count s.cfg) (s.edges (e.held.length + 1)) := by
  have answered : (s.edges e.held.length).pins = e.answer :=
    State.pins_of_inputs (ps := e.waited ++ rest) (inputs_drop (by simpa [Exchange.pins] using hin))
  have count : e.count s.cfg = (s.edges e.held.length).busCount := Exchange.count_eq answered
  rw [← answered] at r v
  rw [run_add_next (run_held f held hin le_rfl), run_one, step_of_answer r f v, State.beginEdge_edges, count]

end

end Sys2Proof.Machine

/-! The backlight (41_backlight.md R120 to R124). -/

namespace Sys2Proof.Machine

open Sys2Proof

theorem decode_setl (on : Bit) : decode (0x6000 + on.setWidth 16) = some (.setl on) := by
  have word : (0x6000 : Word) + on.setWidth 16 = encode (.setl on) := by revert on; decide
  rw [word, decodeInvertsEncode]

theorem ebyte_setl (on : Bit) : ebyte 0 0 on 0 = if on = 1 then 0x08 else 0x00 := by
  revert on; decide

/-- Where SETL emits, its byte carries the BL it has just written (R121). -/
theorem exec_setl_of_emits {s : State} (on : Bit) (legal : s.cfg.Legal) (emits : s.cfg.setlightEmits = true) :
    exec (.setl on) s = .next ((s.setBl on).sending [ebyte 0 0 on 0] .user) := by
  obtain ⟨depth, -⟩ := legal
  have fits : [[ebyte 0 0 on 0]].flatten.length ≤ (s.setBl on).cfg.bufDepth := Nat.le_trans (by simp) depth
  rw [exec, execSetl, if_pos emits, sendCommand_eq_sending .user fits]
  rfl

theorem exec_setl_of_silent {s : State} (on : Bit) (silent : s.cfg.setlightEmits = false) :
    exec (.setl on) s = .next ((s.setBl on).finish .ok) := by
  simp [exec, execSetl, silent]

/-- Settles O16: the equation of SETL for each value of SETLIGHT_EMITS. -/
theorem setlWritesTheBacklight : Obligations.SetlWritesTheBacklight := fun on =>
  ⟨decode_setl on, fun _ legal => ⟨fun emits => ebyte_setl on ▸ exec_setl_of_emits on legal emits, exec_setl_of_silent on⟩⟩

/-- Settles O32: the SETL's edge, the edges without an answer, and the answer, whose count is below the one byte sent only if it is 0. -/
theorem setlKeepsTheNewBacklight : Obligations.SetlKeepsTheNewBacklight := by
  rintro s on p e rest legal emits f hp ⟨held, r, v, -⟩ hin
  have first : step s = .next ((s.beginEdge.setBl on).sending [ebyte 0 0 on 0] .user) := by
    rw [step_of_presents f hp hin (decode_setl on)]
    exact exec_setl_of_emits (s := s.beginEdge) on legal emits
  have left : ((s.beginEdge.setBl on).sending [ebyte 0 0 on 0] .user).inputs = e.pins ++ rest := congrArg List.tail hin
  refine ⟨fun k hk => ⟨_, (run_succ_next first).trans (run_held rfl held left hk), rfl, rfl⟩, ?_⟩
  rw [run_succ_next first, run_answer rfl held left r v]
  by_cases zero : e.count s.cfg = 0
  · simp only [if_pos zero]
    exact ⟨_, completeTransaction_of_short (Nat.lt_one_iff.mpr zero), rfl, rfl, rfl, rfl⟩
  · simp only [if_neg zero]
    exact ⟨_, completeTransaction_of_user (Nat.pos_of_ne_zero zero) rfl, rfl, rfl, rfl, rfl⟩

/-! Which commands write BL and the rows. -/

theorem appendCommand_keeps_bl_row {q : List Byte} {s t : State} (h : appendCommand q s = .next t) : t.bl = s.bl ∧ t.row = s.row := by
  rcases appendCommand_cases q s with ⟨-, e⟩ | ⟨-, e⟩
  all_goals
    rw [e] at h
    cases h
    exact ⟨rfl, rfl⟩

theorem sendCommand_keeps_bl_row {qs : List (List Byte)} {c : Ctx} {s t : State} (h : sendCommand qs c s = .next t) :
    t.bl = s.bl ∧ t.row = s.row := by
  rcases sendCommand_cases qs c s with ⟨-, e⟩ | ⟨_, _, -, -, -, e⟩
  all_goals
    rw [e] at h
    cases h
    exact ⟨rfl, rfl⟩

theorem initStep_keeps_bl_row {k : Fin 8} {s t : State} (h : initStep (s.setStep k) = .next t) : t.bl = s.bl ∧ t.row = s.row :=
  sendCommand_keeps_bl_row (s := s.setStep k) h

/-- SETL writes BL and LDROW a row; no other command writes either (R124, R181). -/
theorem exec_bl_row {i : Instr} {s t : State} (h : exec i s = .next t) :
    (t.bl = s.bl ∧ t.row = s.row) ∨ (∃ on, i = .setl on ∧ t.bl = on ∧ t.row = s.row) ∨
      ∃ idx bm, i = .ldrow idx bm ∧ t.bl = s.bl ∧ t.row = s.row.set idx.toNat bm idx.isLt := by
  cases i with
  | nop | clrbuf => cases h; exact .inl ⟨rfl, rfl⟩
  | nibC | nibD | putC | putD | putCH => exact .inl (appendCommand_keeps_bl_row h)
  | writeC | writeD | writeCH => exact .inl (sendCommand_keeps_bl_row h)
  | init => exact .inl (initStep_keeps_bl_row h)
  | flush =>
    rw [exec, execFlush] at h
    split at h
    all_goals
      cases h
      exact .inl ⟨rfl, rfl⟩
  | goto line col =>
    rw [exec, execGoto] at h
    split at h
    · cases h; exact .inl ⟨rfl, rfl⟩
    · exact .inl (sendCommand_keeps_bl_row h)
  | defchar slot =>
    rw [exec, execDefchar] at h
    split at h
    · cases h; exact .inl ⟨rfl, rfl⟩
    · exact .inl (sendCommand_keeps_bl_row h)
  | setl on =>
    refine .inr (.inl ⟨on, rfl, ?_⟩)
    rw [exec, execSetl] at h
    split at h
    · exact sendCommand_keeps_bl_row h
    · cases h; exact ⟨rfl, rfl⟩
  | ldrow idx bm => cases h; exact .inr (.inr ⟨idx, bm, rfl, rfl, rfl⟩)

/-- The only edges that change BL are a reset and one that accepts a SETL. -/
theorem EdgeShape.bl_cases {s t : State} (h : EdgeShape s t) : t.bl = s.bl ∨ s.pins.rst = true ∨
    (s.fsm = .idle ∧ s.pins.cmdValid = true ∧ ∃ on, decode s.pins.cmdWord = some (.setl on) ∧ t.bl = on) := by
  cases h with
  | reset r => exact .inr (.inl r)
  | command i t r f v d e =>
    rcases exec_bl_row e with ⟨bl, -⟩ | ⟨on, rfl, bl, -⟩ | ⟨_, _, -, bl, -⟩
    · exact .inl bl
    · exact .inr (.inr ⟨f, v, on, d, bl⟩)
    · exact .inl bl
  | waitedInit t r f w c k e => exact .inl (initStep_keeps_bl_row e).1
  | waitedOpenInit k t r f w c e => exact .inl (initStep_keeps_bl_row e).1
  | _ => exact .inl rfl

/-- Under the invariant what an INIT has in the buffer is its step's bytes, composed with the current BL (R161). -/
theorem State.Inv.init_carries {s : State} (h : s.Inv) (busy : s.fsm ≠ .idle) (c : s.ctx = .init) : CarriesBacklight s.bl s.buf := by
  obtain ⟨-, -, bytes, -⟩ := h.engine
  rw [bytes busy c]
  exact (composed_initBytes _ _ _).carries

/-- Settles O43: `EdgeShape.bl_cases`, and `State.Inv.init_carries` after the edge, which keeps the invariant. -/
theorem onlySetlWritesTheBacklight : Obligations.OnlySetlWritesTheBacklight :=
  ⟨fun _ _ h => (step_shape h).bl_cases, fun s t hs h => (stepKeepsInvariant s t hs h).init_carries⟩

end Sys2Proof.Machine

/-! The words of the encoder's commands (30_encoding.md R71, R75, R77): an operand added to an opcode's word, and the words of CLRBUF,
NIB, PUT and WRITE that are no command. -/

namespace Sys2Proof

open Sys2Proof.Machine

/-- Over zeros, adding an operand is placing it. -/
theorem add_operand_eq_or {k : Nat} {p : Word} (x : BitVec k) (zero : p.extractLsb' 0 k = 0) :
    p + x.setWidth 16 = p ||| x.setWidth 16 := by
  apply BitVec.add_eq_or_of_and_eq_zero
  ext j hj
  by_cases h : j < k
  · have bit : p[j] = false := by simpa [h, BitVec.getLsbD_eq_getElem hj] using congrArg (·.getLsbD j) zero
    simp [bit]
  · simp [BitVec.getLsbD_of_ge x j (Nat.not_lt.mp h)]

/-- A word written as its opcode plus an operand decodes to the command that is encoded so. -/
theorem decode_add_operand {k : Nat} {p : Word} {x : BitVec k} {i : Instr} (word : encode i = p ||| x.setWidth 16)
    (zero : p.extractLsb' 0 k = 0) : decode (p + x.setWidth 16) = some i := by
  rw [add_operand_eq_or x zero, ← word, decodeInvertsEncode]

/-- The one word of opcode 1 is CLRBUF's. -/
theorem decode_of_above_clrbuf {w : Word} (above : 0x1000 < w.toNat) (below : w.toNat ≤ 0x1FFF) : decode w = none := by
  have opcode : w.extractLsb' 12 4 = 1 := BitVec.eq_of_toNat_eq (by simp [Nat.shiftRight_eq_div_pow]; omega)
  have row : rowsOfOpcode 1 = [opcodeRows[1]] := rfl
  rw [decode_eq_none_iff_inRange, opcode, row, List.forall_mem_singleton]
  intro ⟨_, last⟩
  exact absurd last (Nat.not_lt.mpr above)

theorem decode_of_reservedBitSet {w : Word} (h : reservedBitSet w = true) : decode w = none :=
  (decode_eq_none_iff_illegalWord w).mpr (by simp [illegalWord, h])

/-- Part of a field is read off the field. -/
theorem extractLsb'_of_field {start k : Nat} {w : Word} {x : BitVec k} (field : w.extractLsb' start k = x) (i len : Nat)
    (inside : i + len ≤ k := by decide) : w.extractLsb' (start + i) len = x.extractLsb' i len := by
  subst field
  ext j hj
  have below : i + j < k := by omega
  simp [below, Nat.add_assoc]

/-- R77: PUT and WRITE have no form with h = 1 and rs = 1. -/
theorem decode_of_refused_mode {w : Word} (opcode : w.extractLsb' 12 4 = 3 ∨ w.extractLsb' 12 4 = 5)
    (mode : w.extractLsb' 8 2 = 3) : decode w = none := by
  have h : w.extractLsb' 9 1 = 1 := extractLsb'_of_field mode 1 1
  have rs : w.extractLsb' 8 1 = 1 := extractLsb'_of_field mode 0 1
  rw [decode_eq_none_iff_illegalWord]
  rcases opcode with opcode | opcode <;> simp [illegalWord, opcode, h, rs]

/-- The eight bits above a byte operand are the opcode word's. -/
theorem high_byte_add_operand {p : Word} (v : Byte) (zero : p.extractLsb' 0 8 = 0) :
    (p + v.setWidth 16).extractLsb' 8 8 = p.extractLsb' 8 8 := by
  rw [add_operand_eq_or v zero, BitVec.extractLsb'_or, low_field_zero_above]
  exact BitVec.or_zero

end Sys2Proof

/-! The buffer commands (42_encoder.md R130 to R145): one equation per outcome of an append, and of a command that sends one value. -/

namespace Sys2Proof.Machine

open Sys2Proof

/-- Settles O11: CLRBUF's word is the only one of its opcode, and its arm empties the buffer and completes. -/
theorem clrbufEmptiesTheBuffer : Obligations.ClrbufEmptiesTheBuffer :=
  ⟨decodeInvertsEncode .clrbuf, fun _ => decode_of_above_clrbuf, fun _ => rfl⟩

theorem appendCommand_of_fits {q : List Byte} {s : State} (h : s.buf.length + q.length ≤ s.cfg.bufDepth) :
    appendCommand q s = .next ({ s with buf := s.buf ++ q }.completed 0) := by
  rw [appendCommand, append_fits h]
  rfl

theorem appendCommand_of_overflow {q : List Byte} {s : State} (h : s.cfg.bufDepth < s.buf.length + q.length) :
    appendCommand q s = .next (s.completed 4) := by
  rw [appendCommand, append_overflow h]
  rfl

/-- Settles O12: the words by their encodings and reserved bits, the two outcomes by those of an append of two bytes. -/
theorem nibAppendsOnePairOrOverflows : Obligations.NibAppendsOnePairOrOverflows := by
  refine ⟨fun w opcode reserved => decode_of_reservedBitSet ?_, fun n => ⟨decode_add_operand rfl rfl, decode_add_operand rfl rfl,
    fun s => ⟨fun fits => ?_, fun full => ?_⟩⟩⟩
  · simpa [reservedBitSet, opcode] using reserved
  · exact ⟨appendCommand_of_fits fits, appendCommand_of_fits fits⟩
  · exact ⟨appendCommand_of_overflow full, appendCommand_of_overflow full⟩

/-- Settles O13: the words by their encodings, reserved bits and refused mode, the outcomes by those of an append of four or two
bytes. -/
theorem putAppendsOneValueOrOverflows : Obligations.PutAppendsOneValueOrOverflows := by
  refine ⟨fun w opcode wrong => ?_, fun v => ⟨decode_add_operand rfl rfl, decode_add_operand rfl rfl, decode_add_operand rfl rfl,
    fun s => ⟨fun fits => ?_, fun full => ?_, fun fits => ?_, fun full => ?_⟩⟩⟩
  · rcases wrong with reserved | mode
    · exact decode_of_reservedBitSet (by simpa [reservedBitSet, opcode] using reserved)
    · exact decode_of_refused_mode (.inl opcode) mode
  · exact ⟨appendCommand_of_fits fits, appendCommand_of_fits fits⟩
  · exact ⟨appendCommand_of_overflow full, appendCommand_of_overflow full⟩
  · exact appendCommand_of_fits fits
  · exact appendCommand_of_overflow full

theorem exec_flush_of_empty {s : State} (h : s.buf = []) : exec .flush s = .next (s.completed 0) :=
  if_pos (congrArg List.length h)

theorem exec_flush_of_some {s : State} (h : s.buf ≠ []) : exec .flush s = .next (s.sending s.buf .user) :=
  if_neg (mt List.eq_nil_of_length_eq_zero h)

/-- Settles O14: the two equations of FLUSH. -/
theorem flushRequestsTheWholeBuffer : Obligations.FlushRequestsTheWholeBuffer :=
  ⟨decodeInvertsEncode .flush, fun _ => ⟨exec_flush_of_empty, exec_flush_of_some⟩⟩

/-- Up to four bytes fit in the buffer of a legal configuration (R11). -/
theorem encodeByte_fits {p : Config.Params} (legal : p.Legal) (bl rs : Bit) (v : Byte) (h : Bit) :
    [encodeByte bl rs v h].flatten.length ≤ p.bufDepth := by
  obtain ⟨depth, -⟩ := legal
  have short := encodeByte_length_le bl rs v h
  rw [List.flatten_singleton]
  omega

theorem write_eq_sending {s : State} (legal : s.cfg.Legal) (rs h : Bit) (v : Byte) :
    write rs h v s = .next (s.sending (encodeByte s.bl rs v h) (writeCtx s.cfg rs h v)) := by
  rw [write, sendCommand_eq_sending _ (encodeByte_fits legal ..), List.flatten_singleton]

theorem writeCtx_command (p : Config.Params) (v : Byte) : writeCtx p 0 0 v = if v ∈ p.slowCmds then .slow else .user := by
  simp [writeCtx]

theorem exec_writeC {s : State} (legal : s.cfg.Legal) (v : Byte) :
    exec (.writeC v) s = .next (s.sending (encodeByte s.bl 0 v 0) (if v ∈ s.cfg.slowCmds then .slow else .user)) := by
  rw [← writeCtx_command]
  exact write_eq_sending legal 0 0 v

theorem decode_writeC (v : Byte) : decode (0x5000 + v.setWidth 16) = some (.writeC v) := decode_add_operand rfl rfl

theorem decode_writeDH (v : Byte) : decode (0x5300 + v.setWidth 16) = none := by
  have high : ((0x5300 : Word) + v.setWidth 16).extractLsb' 8 8 = 0x53 := high_byte_add_operand v rfl
  exact decode_of_refused_mode (.inr (extractLsb'_of_field high 4 4)) (extractLsb'_of_field high 0 2)

/-- Settles O15: the words by their encodings and refused mode, the state by `write_eq_sending`; only the C form has a context of its
own choice. -/
theorem writeRequestsOneValue : Obligations.WriteRequestsOneValue := fun v =>
  ⟨decode_writeC v, decode_add_operand rfl rfl, decode_add_operand rfl rfl, decode_writeDH v, fun _ legal =>
    ⟨exec_writeC legal v, write_eq_sending legal 1 0 v, write_eq_sending legal 0 1 v⟩⟩

end Sys2Proof.Machine

/-! Waits, edge by edge (43_init_fsm.md R150, R162, R163). -/

namespace Sys2Proof.Machine

open Sys2Proof

theorem State.pins_edges (s : State) (n : Nat) : (s.edges n).pins = s.pinsAt n := by
  rw [← pinsAt_zero]
  simp [State.pinsAt, State.edges]

/-- A step of INIT, its number just written, requests that step's bytes (R160, R161). -/
theorem initStep_setStep {s : State} (legal : s.cfg.Legal) (k : Fin 8) :
    initStep (s.setStep k) = .next ((s.setStep k).sending (initBytes s.cfg s.bl k) .init) := by
  have fits : [initBytes s.cfg s.bl k].flatten.length ≤ (s.setStep k).cfg.bufDepth := encodeByte_fits legal ..
  exact (sendCommand_eq_sending .init fits).trans (by rw [List.flatten_singleton])

section
variable {s : State} (r : s.pins.rst = false) (f : s.fsm = .wait)
include r f

theorem step_of_wait_tick (w : 1 < s.wcnt) : step s = .next s.beginEdge.tickWait := by
  rw [step_of_wait r f]
  exact if_pos w

theorem step_of_wait_end (w : s.wcnt ≤ 1) : step s = waitContinuation s.beginEdge := by
  rw [step_of_wait r f]
  exact if_neg (Nat.not_lt.mpr w)

theorem step_of_slow_wait_end (w : s.wcnt ≤ 1) (c : s.ctx = .slow) : step s = .next (s.edge.completed 0) := by
  rw [step_of_wait_end r f w, waitContinuation, State.beginEdge_ctx, c]
  rfl

theorem step_of_init_wait_end (w : s.wcnt ≤ 1) (c : s.ctx = .init) : step s =
    if s.stepReg.val < 7 then initStep (s.beginEdge.setStep (s.stepReg + 1)) else .next (s.edge.completed 0) := by
  rw [step_of_wait_end r f w, waitContinuation, State.beginEdge_ctx, c]
  rfl

end

/-- Settles O29: the equations of a wait's last edge for its two contexts. -/
theorem waitEndsInItsContinuation : Obligations.WaitEndsInItsContinuation := fun s legal r f w => by
  refine ⟨step_of_slow_wait_end r f w, fun c more => ?_, fun c last => ?_⟩
  · rw [step_of_init_wait_end r f w c, if_pos more]
    exact initStep_setStep (s := s.beginEdge) legal _
  · rw [step_of_init_wait_end r f w c, if_neg (by simp [last])]

/-- The edges of a wait before its last, from a count of `n + 1` (R163). -/
theorem run_wait (n : Nat) (s : State) (f : s.fsm = .wait) (w : s.wcnt = n + 1) (alive : ∀ k < n, (s.pinsAt k).rst = false) :
    run n s = .next ((s.edges n).setWcnt 1) := by
  induction n generalizing s with
  | zero =>
    have kept : s.setWcnt 1 = s := by rw [State.setWcnt, ← Nat.zero_add 1, ← w]
    rw [State.edges_zero, kept, run]
  | succ n ih =>
    have first : step s = .next s.beginEdge.tickWait := step_of_wait_tick (pinsAt_zero s ▸ alive 0 n.succ_pos) f (by omega)
    have rest : ∀ k < n, (s.beginEdge.tickWait.pinsAt k).rst = false := fun k hk => by
      have later := alive (k + 1) (Nat.succ_lt_succ hk)
      rwa [pinsAt_succ] at later
    rw [run_succ_next first, ih s.beginEdge.tickWait f (by simp [w]) rest, ← State.edge_edges]
    rfl

/-- A wait after a SLOW transaction completes OK at exactly the last edge of its count (R150). -/
theorem run_slow_wait {s : State} (f : s.fsm = .wait) (c : s.ctx = .slow) (pos : 0 < s.wcnt)
    (alive : ∀ k < s.wcnt, (s.pinsAt k).rst = false) : run s.wcnt s = .next (((s.edges s.wcnt).setWcnt 1).completed 0) := by
  obtain ⟨n, w⟩ := Nat.exists_eq_add_one_of_ne_zero pos.ne'
  rw [w] at alive ⊢
  have last : ((s.edges n).setWcnt 1).pins.rst = false := (s.pins_edges n).symm ▸ alive n n.lt_succ_self
  rw [run_add_next (run_wait n s f w fun k hk => alive k (Nat.lt_succ_of_lt hk)), run_one,
    step_of_slow_wait_end last f le_rfl c, ← State.beginEdge_edges]
  rfl

theorem State.edges_edges (s : State) (m n : Nat) : (s.edges m).edges n = s.edges (m + n) := by
  have pulse : (m == 0 && n == 0) = (m + n == 0) := by
    rw [Bool.eq_iff_iff]
    simp
  simp [State.edges, Nat.add_assoc, Bool.and_assoc, pulse]

/-- The state at the answer of a SLOW transaction: its wait has begun. -/
def State.slowWait (s : State) (e : Exchange) : State :=
  ((s.edges (e.held.length + 1)).recordTransaction (e.count s.cfg)).startWait s.cfg.tSlow

theorem State.slowWait_edges (s : State) (e : Exchange) (n : Nat) : ((s.slowWait e).edges n).setWcnt 1 =
    { (s.edges (e.held.length + 1 + n)).recordTransaction (e.count s.cfg) with fsm := .wait, wcnt := 1 } := by
  rw [← State.edges_edges]
  rfl

section
variable {s : State} {e : Exchange} {rest : List Pins} (f : s.fsm = .xfer) (c : s.ctx = .slow) (hin : s.inputs = e.pins ++ rest)
  (answered : e.Answered (waitCycles s.cfg s.cfg.tSlow)) (count : s.len ≤ e.count s.cfg)
include f c hin answered count

theorem run_slow_answer : run (e.held.length + 1) s = .next (s.slowWait e) := by
  obtain ⟨held, r, done, -⟩ := answered
  rw [run_answer f held hin r done]
  exact completeTransaction_of_slow count c

/-- A SLOW transaction answered in full, and its wait to the end (R150). -/
theorem run_slow_exchange (pos : 0 < waitCycles s.cfg s.cfg.tSlow) : run e.pins.length s =
    .next ({ (s.edges e.pins.length).recordTransaction (e.count s.cfg) with wcnt := 1 }.completed 0) := by
  have first := run_slow_answer f c hin answered count
  obtain ⟨-, -, -, waited, alive⟩ := answered
  have left : (s.slowWait e).inputs = e.waited ++ rest := by
    have cut : (s.slowWait e).inputs = s.inputs.drop (e.held.length + 1) := rfl
    simp [cut, hin, Exchange.pins]
  have edges : e.pins.length = e.held.length + 1 + (s.slowWait e).wcnt := by
    rw [Exchange.pins_length, waited, Nat.add_assoc, Nat.add_comm 1]
    rfl
  rw [edges, run_add_next first, run_slow_wait (s := s.slowWait e) rfl c pos fun k hk => alive _ (pinsAt_mem left (waited ▸ hk)),
    State.slowWait_edges]
  rfl

end

/-- Settles O31: the WRITE's edge, its answer, which begins the wait, and the wait to its end. -/
theorem slowWriteWaitsThenCompletes : Obligations.SlowWriteWaitsThenCompletes := by
  rintro s v p e rest legal f slow hp answered count hin
  have first : step s = .next (s.beginEdge.sending (encodeByte s.bl 0 v 0) .slow) := by
    rw [step_of_presents f hp hin (decode_writeC v), exec_writeC (s := s.beginEdge) legal, State.beginEdge_cfg, if_pos slow]
    rfl
  have left : (s.beginEdge.sending (encodeByte s.bl 0 v 0) .slow).inputs = e.pins ++ rest := congrArg List.tail hin
  have pos : 0 < waitCycles s.cfg s.cfg.tSlow := by
    obtain ⟨-, -, -, -, -, -, clk, -, -, tSlow⟩ := legal
    exact waitCycles_pos clk tSlow
  refine ⟨⟨_, (run_succ_next first).trans (run_slow_answer rfl rfl left answered count), rfl, rfl, rfl, rfl⟩, .slow, 1, ?_⟩
  rw [run_succ_next first, run_slow_exchange rfl rfl left answered count pos, State.edges, inputs_drop left, f, Nat.add_comm _ 1,
    ← Nat.add_assoc]
  rfl

end Sys2Proof.Machine

/-! A batch (42_encoder.md R151). The offers of CLRBUF and PUT.D are each one local command and an idle gap; `State.filled` is what any
number of them leave. -/

namespace Sys2Proof.Machine

open Sys2Proof

/-- Idle edges without a command keep the state, for any number of edges (R222). -/
theorem run_idle (n : Nat) (s : State) (f : s.fsm = .idle)
    (quiet : ∀ k < n, (s.pinsAt k).rst = false ∧ (s.pinsAt k).cmdValid = false) : run n s = .next (s.edges n) := by
  induction n with
  | zero => rw [State.edges_zero, run]
  | succ n ih =>
    obtain ⟨r, v⟩ := quiet n n.lt_succ_self
    rw [← State.pins_edges] at r v
    rw [run_add_next (ih fun k hk => quiet k (Nat.lt_succ_of_lt hk)), run_one, step_of_idle r f, v, State.beginEdge_edges]
    rfl

/-- The state after `k` edges at which `n` local commands completed OK and left `q` in the buffer; `v` is the response pulse. -/
def State.filled (s : State) (q : List Byte) (n k : Nat) (v : Bool) : State :=
  { s with
    buf := q
    status := 0
    rspValid := v
    inputs := s.inputs.drop k
    draws := s.draws + k
    responses := s.responses ++ List.replicate n 0 }

theorem State.filled_filled (s : State) (q q' : List Byte) (n n' k k' : Nat) (v v' : Bool) :
    (s.filled q n k v).filled q' n' k' v' = s.filled q' (n + n') (k + k') v' := by
  simp [State.filled, Nat.add_assoc]

/-- One such command and its gap. -/
theorem State.filled_one {s : State} (f : s.fsm = .idle) (q : List Byte) (n : Nat) :
    ({ s.beginEdge with buf := q }.completed 0).edges n = s.filled q 1 (n + 1) (n == 0) := by
  simp [State.edges, State.completed, State.beginEdge, State.filled, f, Nat.add_assoc, Nat.add_comm 1]

/-- An offer of a command that only fills the buffer, its gap included (R37, R222). -/
theorem run_offer {s : State} {o : Offer} {w : Word} {i : Instr} {rest : List Pins} {q : List Byte} (f : s.fsm = .idle)
    (hp : o.Presents w) (hin : s.inputs = o.pins ++ rest) (d : decode w = some i)
    (e : exec i s.beginEdge = .next ({ s.beginEdge with buf := q }.completed 0)) :
    ∃ v, run o.pins.length s = .next (s.filled q 1 o.pins.length v) := by
  obtain ⟨presented, quiet⟩ := hp
  have first := (step_of_presents f presented hin d).trans e
  have left : ({ s.beginEdge with buf := q }.completed 0).inputs = o.gap ++ rest := congrArg List.tail hin
  refine ⟨o.gap.length == 0, ?_⟩
  rw [Offer.pins_length, run_succ_next first, run_idle _ _ rfl fun k hk => quiet _ (pinsAt_mem left hk), State.filled_one f]

theorem decode_putD (v : Byte) : decode (0x3100 + v.setWidth 16) = some (.putD v) := decode_add_operand rfl rfl

/-- The pins of the offers of a batch's characters. -/
def characterPins (cs : List (Byte × Offer)) : List Pins := cs.flatMap fun c => c.2.pins

theorem batchBytes_cons (bl : Bit) (c : Byte) (cs : List Byte) :
    batchBytes bl (c :: cs) = encodeByte bl 1 c 0 ++ batchBytes bl cs := rfl

theorem batchBytes_length (bl : Bit) (cs : List Byte) : (batchBytes bl cs).length = 4 * cs.length := by
  simp [batchBytes, Nat.mul_comm]

/-- The PUT.Ds of a batch, each with its gap, append their bytes one after another (R133). -/
theorem run_characters {s : State} (f : s.fsm = .idle) (cs : List (Byte × Offer)) {rest : List Pins} {q : List Byte} {n k : Nat}
    {v : Bool} (hp : ∀ c ∈ cs, c.2.Presents (0x3100 + c.1.setWidth 16)) (hin : s.inputs.drop k = characterPins cs ++ rest)
    (fits : q.length + 4 * cs.length ≤ s.cfg.bufDepth) : ∃ v', run (characterPins cs).length (s.filled q n k v) =
      .next (s.filled (q ++ batchBytes s.bl (cs.map Prod.fst)) (n + cs.length) (k + (characterPins cs).length) v') := by
  induction cs generalizing q n k v with
  | nil => exact ⟨v, by simp [characterPins, batchBytes, run]⟩
  | cons c cs ih =>
    obtain ⟨b, o⟩ := c
    obtain ⟨offered, hp⟩ := List.forall_mem_cons.mp hp
    have script : characterPins ((b, o) :: cs) = o.pins ++ characterPins cs := rfl
    rw [script, List.append_assoc] at hin
    rw [List.length_cons] at fits
    have room : q.length + (encodeByte s.bl 1 b 0).length ≤ s.cfg.bufDepth := by rw [encodeByte_length_full]; omega
    obtain ⟨v₁, put⟩ := run_offer (s := s.filled q n k v) f offered hin (decode_putD b) (appendCommand_of_fits room)
    rw [State.filled_filled] at put
    obtain ⟨v₂, tail⟩ := ih (q := q ++ encodeByte s.bl 1 b 0) (n := n + 1) (k := k + o.pins.length) (v := v₁) hp
      (by rw [← List.drop_drop, hin, List.drop_left]) (by rw [List.length_append, encodeByte_length_full]; omega)
    refine ⟨v₂, ?_⟩
    rw [script, List.length_append, run_add_next put]
    refine tail.trans ?_
    rw [List.map_cons, batchBytes_cons, List.length_cons, List.append_assoc, Nat.add_assoc, Nat.add_assoc, Nat.add_comm 1]

/-- The answer of a transaction without a continuation completes by its count (R56). -/
theorem completeTransaction_user {s : State} (c : s.ctx = .user) (n : Nat) :
    completeTransaction n s = .next ((s.recordTransaction n).completed (if n < s.len then 1 else 0)) := by
  rcases Nat.lt_or_ge n s.len with short | long
  · rw [if_pos short]
    exact completeTransaction_of_short short
  · rw [if_neg (Nat.not_lt.mpr long)]
    exact completeTransaction_of_user long c

/-- FLUSH of some bytes, to its answer: one transaction, completed by the count (R140, R56). -/
theorem run_flush {s : State} {p : Pins} {e : Exchange} {rest : List Pins} {code : BitVec 3} (f : s.fsm = .idle) (some : s.buf ≠ [])
    (hp : p.Presents 0x4000) (answered : e.Answered 0) (hin : s.inputs = (p :: e.pins) ++ rest)
    (hcode : code = if e.count s.cfg < s.len then 1 else 0) :
    run (p :: e.pins).length s = .next { s with
      status := code, ctx := .user, rspValid := true, inputs := rest, draws := s.draws + (p :: e.pins).length,
      transactions := s.transactions ++ [⟨s.buf, e.count s.cfg⟩], responses := s.responses ++ [code] } := by
  obtain ⟨held, r, done, waited, -⟩ := answered
  have first : step s = .next (s.beginEdge.sending s.buf .user) :=
    (step_of_presents f hp hin (decodeInvertsEncode .flush)).trans (exec_flush_of_some some)
  have left : (s.beginEdge.sending s.buf .user).inputs = e.pins ++ rest := congrArg List.tail hin
  have edges : e.pins.length = e.held.length + 1 := by rw [Exchange.pins_length, waited]
  rw [List.length_cons, run_succ_next first, edges, run_answer rfl held left r done, completeTransaction_user rfl, ← edges,
    State.edges, inputs_drop left, f, hcode, Nat.add_comm e.pins.length 1, ← Nat.add_assoc]
  rfl

/-- CLRBUF and the PUT.Ds of a batch, each with its gap, leave the characters' bytes in the buffer. -/
theorem run_fill {s : State} {clr : Offer} {cs : List (Byte × Offer)} {rest : List Pins} (f : s.fsm = .idle)
    (hclr : clr.Presents 0x1000) (hcs : ∀ c ∈ cs, c.2.Presents (0x3100 + c.1.setWidth 16))
    (hin : s.inputs = clr.pins ++ (characterPins cs ++ rest)) (fits : 4 * cs.length ≤ s.cfg.bufDepth) :
    ∃ v, run (clr.pins ++ characterPins cs).length s =
      .next (s.filled (batchBytes s.bl (cs.map Prod.fst)) (cs.length + 1) (clr.pins ++ characterPins cs).length v) := by
  obtain ⟨v₁, cleared⟩ := run_offer f hclr hin (decodeInvertsEncode .clrbuf) rfl
  obtain ⟨v₂, written⟩ := run_characters f cs (q := []) (n := 1) (v := v₁) hcs (inputs_drop hin) (by simpa using fits)
  rw [List.nil_append, Nat.add_comm 1] at written
  exact ⟨v₂, by rw [List.length_append, run_add_next cleared, written]⟩

/-- Settles O33: CLRBUF and the PUT.Ds fill the buffer (`run_fill`), and FLUSH sends it (`run_flush`). -/
theorem batchIsOneTransaction : Obligations.BatchIsOneTransaction := by
  intro s clr cs flush e rest f some fits hclr hcs hflush answered script hin bytes code
  have length : bytes.length = 4 * cs.length := by rw [batchBytes_length, List.length_map]
  have nonempty : bytes ≠ [] := fun empty => some (by simpa [empty] using length.symm)
  have hcode : code = if e.count s.cfg < bytes.length then 1 else 0 := by rw [length]
  have parts : script = clr.pins ++ characterPins cs ++ (flush :: e.pins) := rfl
  rw [parts, List.append_assoc] at hin
  obtain ⟨v, filled⟩ := run_fill f hclr hcs (hin.trans (List.append_assoc ..)) fits
  refine ⟨length, .user, ?_⟩
  rw [parts, List.length_append, run_add_next filled, ← Nat.add_assoc]
  exact run_flush (s := s.filled bytes (cs.length + 1) _ v) f nonempty hflush answered (inputs_drop hin) hcode

end Sys2Proof.Machine

/-! NOP and INIT at their own edges, INIT's table, and the length of a wait (43_init_fsm.md R160 to R166). -/

namespace Sys2Proof.Machine

open Sys2Proof

/-- The one word of opcode 0 is NOP's. -/
theorem decode_of_above_nop {w : Word} (above : 0 < w.toNat) (below : w.toNat ≤ 0x0FFF) : decode w = none := by
  have opcode : w.extractLsb' 12 4 = 0 := BitVec.eq_of_toNat_eq (by simp [Nat.shiftRight_eq_div_pow]; omega)
  have row : rowsOfOpcode 0 = [opcodeRows[0]] := rfl
  rw [decode_eq_none_iff_inRange, opcode, row, List.forall_mem_singleton]
  intro ⟨_, last⟩
  exact absurd last (Nat.not_lt.mpr above)

/-- Settles O10: NOP's word is the only one of its opcode, and its arm completes. -/
theorem nopOnlyCompletesOk : Obligations.NopOnlyCompletesOk :=
  ⟨decodeInvertsEncode .nop, fun _ => decode_of_above_nop, fun _ => rfl⟩

/-- The state with the bytes of INIT step `k` in the buffer and their transaction requested (R160, R161). -/
def State.initRequest (s : State) (k : Fin 8) : State := (s.setStep k).sending (initBytes s.cfg s.bl k) .init

theorem exec_init {s : State} (legal : s.cfg.Legal) : exec .init s = .next (s.initRequest 0) := initStep_setStep legal 0

/-- Settles O21: `exec_init`, step 0 being CMD_RESET in high-nibble-only mode. -/
theorem initStartsAtStepZero : Obligations.InitStartsAtStepZero :=
  ⟨decodeInvertsEncode .init, fun _ legal => exec_init legal⟩

/-- Command and mode of each INIT step (R161). -/
theorem initBytes_of_table (p : Config.Params) (bl : Bit) (k : Fin 8) :
    initBytes p bl k = encodeByte bl 0
      (([p.cmdReset, p.cmdReset, p.cmdReset, p.cmdFunc4, p.cmdFunc, p.cmdDispctl, p.cmdEntry, p.cmdClear] : List Byte).getD k.val 0)
      (if k.val < 4 then 1 else 0) := by
  fin_cases k <;> rfl

/-- Settles O22: the table for every configuration step by step, for the default one by evaluation. -/
theorem initStepsFollowTheTable : Obligations.InitStepsFollowTheTable :=
  ⟨fun p bl k => ⟨initBytes_of_table p bl k, rfl⟩, fun _ => rfl, by decide, by decide⟩

/-- Settles O24: the answer is short, so the context does not matter (R56). -/
theorem initStopsAtAShortAnswer : Obligations.InitStopsAtAShortAnswer := fun s r f _ v short => by
  obtain ⟨ends, -⟩ := answerFollowsContext s r f v
  exact ends short

/-- A wait's count is the least number of cycles that lasts its time (R163). -/
theorem waitCycles_ceiling (p : Config.Params) (t : Nat) :
    t * p.clkHz.freq ≤ waitCycles p t * 1000000 ∧ waitCycles p t * 1000000 < t * p.clkHz.freq + 1000000 := by
  unfold waitCycles
  split <;> omega

/-- Settles O27: the count is positive, and `waitCycles_ceiling` bounds it on both sides. -/
theorem waitCountIsTheCeiling : Obligations.WaitCountIsTheCeiling := fun p t legal ht => by
  obtain ⟨-, -, -, -, -, -, clk, -⟩ := legal
  have pos : 0 < waitCycles p t := waitCycles_pos clk ht
  obtain ⟨enough, least⟩ := waitCycles_ceiling p t
  refine ⟨pos, enough, ?_⟩
  rw [Nat.sub_one_mul]
  exact (Nat.sub_lt_iff_lt_add (Nat.le_mul_of_pos_left 1000000 pos)).mpr least

/-- Settles O28: `run_wait`. -/
theorem waitLastsItsCount : Obligations.WaitLastsItsCount := run_wait

end Sys2Proof.Machine

/-! A whole INIT (43_init_fsm.md R160 to R163): one exchange for each step, and the steps from any one to the last. -/

namespace Sys2Proof.Machine

open Sys2Proof

/-- A wait runs to its end and goes on with its continuation (R163). -/
theorem run_wait_to_end {s : State} (f : s.fsm = .wait) (pos : 0 < s.wcnt) (alive : ∀ k < s.wcnt, (s.pinsAt k).rst = false) :
    run s.wcnt s = waitContinuation ((s.edges s.wcnt).setWcnt 1) := by
  obtain ⟨n, w⟩ := Nat.exists_eq_add_one_of_ne_zero pos.ne'
  rw [w] at alive ⊢
  have last : ((s.edges n).setWcnt 1).pins.rst = false := (s.pins_edges n).symm ▸ alive n n.lt_succ_self
  rw [run_add_next (run_wait n s f w fun k hk => alive k (Nat.lt_succ_of_lt hk)), run_one, step_of_wait_end last f le_rfl,
    ← State.beginEdge_edges]
  rfl

/-- The state at the answer of INIT step `k`: its wait has begun. -/
def State.initWait (s : State) (k : Fin 8) (e : Exchange) : State :=
  (((s.initRequest k).edges (e.held.length + 1)).recordTransaction (e.count s.cfg)).startWait (tInit s.cfg k)

/-- The state in which INIT goes on, or ends, after step `k` and its wait. -/
def State.initStepped (s : State) (k : Fin 8) (e : Exchange) : State :=
  { ((s.initRequest k).edges e.pins.length).recordTransaction (e.count s.cfg) with fsm := .wait, wcnt := 1 }

/-- The state after an INIT that ran to its last step in `n` edges, with the transactions `ts`. -/
def State.initDone (s : State) (n : Nat) (ts : List Transaction) : State :=
  { s with
    buf := initBytes s.cfg s.bl 7
    status := 0
    fsm := .idle
    ctx := .init
    stepReg := 7
    wcnt := 1
    rspValid := true
    inputs := s.inputs.drop n
    draws := s.draws + n
    transactions := s.transactions ++ ts
    responses := s.responses ++ [0] }

/-- The record of INIT step `k`. -/
def Exchange.initTransaction (e : Exchange) (p : Config.Params) (bl : Bit) (k : Fin 8) : Transaction :=
  ⟨initBytes p bl k, e.count p⟩

section
variable {s : State} {k : Fin 8} {e : Exchange} {rest : List Pins} (legal : s.cfg.Legal) (hin : s.inputs = e.pins ++ rest)
  (answered : e.Answered (waitCycles s.cfg (tInit s.cfg k))) (count : (initBytes s.cfg s.bl k).length ≤ e.count s.cfg)
include legal hin answered count

/-- An INIT step answered in full, and its wait to the end. -/
theorem run_init_exchange : run e.pins.length (s.initRequest k) = waitContinuation (s.initStepped k e) := by
  obtain ⟨held, r, done, waited, alive⟩ := answered
  have first : run (e.held.length + 1) (s.initRequest k) = .next (s.initWait k e) := by
    rw [run_answer (s := s.initRequest k) rfl held hin r done]
    exact completeTransaction_of_init count rfl
  have left : (s.initWait k e).inputs = e.waited ++ rest := by
    have cut : (s.initWait k e).inputs = s.inputs.drop (e.held.length + 1) := rfl
    simp [cut, hin, Exchange.pins]
  have edges : e.pins.length = e.held.length + 1 + (s.initWait k e).wcnt := by
    rw [Exchange.pins_length, waited, Nat.add_assoc, Nat.add_comm 1]
    rfl
  have pos : 0 < (s.initWait k e).wcnt := by
    have time : 0 < tInit s.cfg k := tInit_pos legal k
    obtain ⟨-, -, -, -, -, -, clk, -⟩ := legal
    exact waitCycles_pos clk time
  rw [State.initStepped, edges, run_add_next first,
    run_wait_to_end (s := s.initWait k e) rfl pos fun j hj => alive _ (pinsAt_mem left (waited ▸ hj)), ← State.edges_edges]
  rfl

/-- An INIT step before the last is followed by the request of the next (R162). -/
theorem run_init_next (more : k.val < 7) : run e.pins.length (s.initRequest k) = .next ((s.initStepped k e).initRequest (k + 1)) := by
  rw [run_init_exchange legal hin answered count]
  exact (if_pos more).trans (initStep_setStep (s := s.initStepped k e) legal (k + 1))

/-- The last INIT step completes the command (R162). -/
theorem run_init_last (last : k = 7) : run e.pins.length (s.initRequest k) =
    .next (s.initDone e.pins.length [e.initTransaction s.cfg s.bl k]) := by
  rw [run_init_exchange legal hin answered count]
  subst last
  rfl

end

theorem State.initStepped_initDone (s : State) (k : Fin 8) (e : Exchange) (n : Nat) (ts : List Transaction) :
    (s.initStepped k e).initDone n ts = s.initDone (e.pins.length + n) (e.initTransaction s.cfg s.bl k :: ts) := by
  simp [State.initDone, State.initStepped, State.initRequest, State.sending, State.edges, Exchange.initTransaction, Nat.add_assoc]

/-- The INIT steps from step `k` on. -/
def initStepsFrom (k : Fin 8) : List (Fin 8) := (List.finRange 8).drop k.val

theorem initStepsFrom_castSucc : ∀ k : Fin 7, initStepsFrom k.castSucc = k.castSucc :: initStepsFrom k.succ := by decide

/-- The pins of the exchanges of the INIT steps from step `k` on. -/
def initPins (e : Fin 8 → Exchange) (k : Fin 8) : List Pins := (initStepsFrom k).flatMap fun j => (e j).pins

/-- The record of the INIT steps from step `k` on. -/
def initTransactions (p : Config.Params) (bl : Bit) (e : Fin 8 → Exchange) (k : Fin 8) : List Transaction :=
  (initStepsFrom k).map fun j => (e j).initTransaction p bl j

theorem initPins_castSucc (e : Fin 8 → Exchange) (k : Fin 7) : initPins e k.castSucc = (e k.castSucc).pins ++ initPins e k.succ := by
  rw [initPins, initStepsFrom_castSucc]
  rfl

theorem initTransactions_castSucc (p : Config.Params) (bl : Bit) (e : Fin 8 → Exchange) (k : Fin 7) :
    initTransactions p bl e k.castSucc = (e k.castSucc).initTransaction p bl k.castSucc :: initTransactions p bl e k.succ := by
  rw [initTransactions, initStepsFrom_castSucc]
  rfl

/-- From the request of step `k` an INIT runs to its end, by induction from the last step down. -/
theorem run_init_steps (e : Fin 8 → Exchange) (k : Fin 8) {s : State} {rest : List Pins} (legal : s.cfg.Legal)
    (answered : ∀ k, (e k).Answered (waitCycles s.cfg (tInit s.cfg k)) ∧ (initBytes s.cfg s.bl k).length ≤ (e k).count s.cfg)
    (hin : s.inputs = initPins e k ++ rest) : run (initPins e k).length (s.initRequest k) =
      .next (s.initDone (initPins e k).length (initTransactions s.cfg s.bl e k)) := by
  induction k using Fin.reverseInduction generalizing s with
  | last =>
    obtain ⟨exchanged, count⟩ := answered (Fin.last 7)
    have pins : initPins e (Fin.last 7) = (e 7).pins := List.append_nil _
    rw [pins] at hin ⊢
    exact run_init_last legal hin exchanged count rfl
  | cast k ih =>
    obtain ⟨exchanged, count⟩ := answered k.castSucc
    rw [initPins_castSucc, List.append_assoc] at hin
    have next := run_init_next legal hin exchanged count k.isLt
    rw [Fin.coeSucc_eq_succ] at next
    rw [initPins_castSucc, List.length_append, run_add_next next, initTransactions_castSucc, ← State.initStepped_initDone]
    exact ih (s := s.initStepped _ _) legal answered (inputs_drop hin)

/-- Settles O30: the INIT's edge requests step 0, and from there the steps run to the end. -/
theorem initRunsItsEightSteps : Obligations.InitRunsItsEightSteps := by
  intro s p e rest legal f hp answered script hin
  have first : step s = .next (s.beginEdge.initRequest 0) :=
    (step_of_presents f hp hin (decodeInvertsEncode .init)).trans (exec_init (s := s.beginEdge) legal)
  have left : s.beginEdge.inputs = initPins e 0 ++ rest := congrArg List.tail hin
  have parts : script.length = (initPins e 0).length + 1 := rfl
  refine ⟨.init, 7, 1, ?_⟩
  rw [parts, run_succ_next first, run_init_steps e 0 (s := s.beginEdge) legal answered left, State.initDone, inputs_drop left,
    Nat.add_comm _ 1, ← Nat.add_assoc]
  rfl

end Sys2Proof.Machine

/-! The character-definition commands (44_cgram.md R180 to R183). -/

namespace Sys2Proof.Machine

open Sys2Proof

/-! LDROW and the rows. -/

/-- The index of LDROW, added at bit 8, meets only zeros of the opcode's word. -/
theorem ldrow_index_word (idx : BitVec 3) : (0x8000 : Word) + (idx.setWidth 16 <<< 8) = 0x8000 ||| (idx.setWidth 16 <<< 8) := by
  revert idx; decide

theorem ldrow_index_word_low_byte (idx : BitVec 3) : ((0x8000 : Word) + (idx.setWidth 16 <<< 8)).extractLsb' 0 8 = 0 := by
  revert idx; decide

theorem decode_ldrow (idx : BitVec 3) (bm : Byte) :
    decode (0x8000 + (idx.setWidth 16 <<< 8) + bm.setWidth 16) = some (.ldrow idx bm) := by
  have word : encode (.ldrow idx bm) = 0x8000 + (idx.setWidth 16 <<< 8) ||| bm.setWidth 16 :=
    congrArg (· ||| bm.setWidth 16) (ldrow_index_word idx).symm
  exact decode_add_operand word (ldrow_index_word_low_byte idx)

/-- Settles O19: LDROW's words by its encoding and reserved bit, its state by `exec_ldrow`. -/
theorem ldrowWritesOneRow : Obligations.LdrowWritesOneRow := by
  refine ⟨fun w opcode reserved => decode_of_reservedBitSet ?_, fun idx bm => ⟨decode_ldrow idx bm, exec_ldrow idx bm⟩⟩
  simp [reservedBitSet, opcode, reserved]

/-- The only edges that change a row are a reset and one that accepts an LDROW. -/
theorem EdgeShape.row_cases {s t : State} (h : EdgeShape s t) : t.row = s.row ∨ s.pins.rst = true ∨
    (s.fsm = .idle ∧ s.pins.cmdValid = true ∧
      ∃ idx bm, decode s.pins.cmdWord = some (.ldrow idx bm) ∧ t.row = s.row.set idx.toNat bm idx.isLt) := by
  cases h with
  | reset r => exact .inr (.inl r)
  | command i t r f v d e =>
    rcases exec_bl_row e with ⟨-, row⟩ | ⟨_, -, -, row⟩ | ⟨idx, bm, rfl, -, row⟩
    · exact .inl row
    · exact .inl row
    · exact .inr (.inr ⟨f, v, idx, bm, d, row⟩)
  | waitedInit t r f w c k e => exact .inl (initStep_keeps_bl_row e).2
  | waitedOpenInit k t r f w c e => exact .inl (initStep_keeps_bl_row e).2
  | _ => exact .inl rfl

/-- Settles O44: of the edges that change a row, an LDROW's changes the one of its index. -/
theorem rowsKeepTheirValues : Obligations.RowsKeepTheirValues := by
  intro s t k h
  rcases (step_shape h).row_cases with row | r | ⟨f, v, idx, bm, d, row⟩
  · exact .inl (by rw [row])
  · exact .inr (.inl r)
  · by_cases index : idx.toNat = k.val
    · exact .inr (.inr ⟨f, v, idx, bm, d, index, by simp [row, index]⟩)
    · exact .inl (by simp [row, index])

/-! DEFCHAR. -/

/-- Under R183's geometry a DEFCHAR sends all eight rows. -/
theorem defcharSeqs_of_legal {s : State} (legal : s.cfg.Legal) (slot : BitVec 4) : defcharSeqs s slot =
    encodeByte s.bl 0 s.cfg.defcharEntryCmd 0 :: encodeByte s.bl 0 (cgramCommand slot) 0 ::
      (s.row.toList.map (fun r => encodeByte s.bl 1 (r &&& s.cfg.defcharRowMask) 0) ++
        [encodeByte s.bl 0 s.cfg.defcharRestoreCmd 0]) := by
  obtain ⟨-, -, -, -, -, rows, -⟩ := legal
  have all : s.row.toList.take s.cfg.cgRows = s.row.toList := List.take_of_length_le (by simp [rows])
  rw [defcharSeqs, all]
  rfl

theorem defcharSeqs_length_of_legal {s : State} (legal : s.cfg.Legal) (slot : BitVec 4) : (defcharSeqs s slot).flatten.length = 44 := by
  obtain ⟨-, -, -, -, -, rows, -⟩ := legal
  rw [defcharSeqs_length, rows, Nat.min_self]

/-- Every sequence of a DEFCHAR is one value in full mode. -/
theorem length_of_mem_defcharSeqs {s : State} {slot : BitVec 4} {q : List Byte} (h : q ∈ defcharSeqs s slot) : q.length = 4 := by
  simp only [defcharSeqs, List.mem_append, List.mem_cons, List.mem_map, List.not_mem_nil, or_false] at h
  rcases h with ((rfl | rfl) | ⟨r, -, rfl⟩) | rfl <;> exact encodeByte_length_full ..

/-- In a concatenation of parts of length `n` the part `k` stands at `n * k`. -/
theorem take_drop_flatten {α : Type} {n k : Nat} {qs : List (List α)} {q : List α} (uniform : ∀ x ∈ qs, x.length = n)
    (at_k : qs[k]? = some q) : (qs.flatten.drop (n * k)).take n = q := by
  induction qs generalizing k with
  | nil => simp at at_k
  | cons x xs ih =>
    obtain ⟨first, rest⟩ := List.forall_mem_cons.mp uniform
    cases k with
    | zero =>
      obtain rfl : x = q := by simpa using at_k
      simp [← first]
    | succ k =>
      have skip : n * (k + 1) = x.length + n * k := by rw [first, Nat.mul_succ, Nat.add_comm]
      rw [List.flatten_cons, skip, List.drop_length_add_append, ih rest (by simpa using at_k)]

/-- The bytes at `4 * k` of a DEFCHAR's request are its sequence `k`. -/
theorem defchar_bytes_at {s : State} {slot : BitVec 4} {k : Nat} {q : List Byte} (at_k : (defcharSeqs s slot)[k]? = some q) :
    ((defcharSeqs s slot).flatten.drop (4 * k)).take 4 = q :=
  take_drop_flatten (fun _ => length_of_mem_defcharSeqs) at_k

theorem badSlot_eq_of_legal {p : Config.Params} (legal : p.Legal) (slot : BitVec 4) : badSlot p slot = decide (8 ≤ slot.toNat) := by
  obtain ⟨-, -, -, -, slots, -⟩ := legal
  rw [badSlot, slots]

theorem exec_defchar_of_bad_slot {s : State} {slot : BitVec 4} (legal : s.cfg.Legal) (bad : 8 ≤ slot.toNat) :
    exec (.defchar slot) s = .next (s.completed 3) :=
  if_pos (by rw [badSlot_eq_of_legal legal, decide_eq_true bad])

theorem exec_defchar_of_slot {s : State} {slot : BitVec 4} (legal : s.cfg.Legal) (good : slot.toNat < 8) :
    exec (.defchar slot) s = .next (s.sending (defcharSeqs s slot).flatten .user) := by
  have accepted : badSlot s.cfg slot = false := by simpa [badSlot_eq_of_legal legal] using good
  have fits : (defcharSeqs s slot).flatten.length ≤ s.cfg.bufDepth := (defcharSeqs_length_of_legal legal slot).trans_le legal.1
  rw [exec, execDefchar, accepted, ← sendCommand_eq_sending .user fits]
  rfl

/-- Settles O20: the request is the concatenation of eleven sequences of four bytes, each read off its place. -/
theorem defcharRequestsFortyFourBytes : Obligations.DefcharRequestsFortyFourBytes := by
  refine fun slot => ⟨decode_add_operand rfl rfl, fun s legal => ⟨fun good => ?_, exec_defchar_of_bad_slot legal⟩⟩
  have seqs := defcharSeqs_of_legal legal slot
  have length := defcharSeqs_length_of_legal legal slot
  refine ⟨_, exec_defchar_of_slot legal good, length, ?framing, ?address, fun k => ?row, ?restoration⟩
  case framing => exact defchar_bytes_at (k := 0) (by simp [seqs])
  case address => exact defchar_bytes_at (k := 1) (by simp [seqs, cgramCommand])
  case row =>
    have place : 8 + 4 * k.val = 4 * (k.val + 2) := by omega
    rw [place]
    exact defchar_bytes_at (by simp [seqs, List.getElem?_append_left])
  case restoration =>
    have last : ((defcharSeqs s slot).flatten.drop 40).length = 4 := by rw [List.length_drop, length]
    rw [← List.take_of_length_le last.le]
    exact defchar_bytes_at (k := 10) (by simp [seqs])

end Sys2Proof.Machine

/-! The cursor-addressing command (45_cursor.md R195 to R197). -/

namespace Sys2Proof.Machine

open Sys2Proof

/-! The words and the range check of GOTO. -/

/-- The line of GOTO, added at bit 8, meets only zeros of the opcode's word. -/
theorem goto_line_word (line : BitVec 4) : (0x7000 : Word) + (line.setWidth 16 <<< 8) = 0x7000 ||| (line.setWidth 16 <<< 8) := by
  revert line; decide

theorem decode_goto (line : BitVec 4) (col : Byte) :
    decode (0x7000 + (line.setWidth 16 <<< 8) + col.setWidth 16) = some (.goto line col) := by
  have word : encode (.goto line col) = 0x7000 + (line.setWidth 16 <<< 8) ||| col.setWidth 16 :=
    congrArg (· ||| col.setWidth 16) (goto_line_word line).symm
  have low_byte : ((0x7000 : Word) + (line.setWidth 16 <<< 8)).extractLsb' 0 8 = 0 := by
    rw [goto_line_word, BitVec.extractLsb'_or, field_zero_below]
    rfl
  exact decode_add_operand word low_byte

theorem badPosition_iff_of_legal {p : Config.Params} (legal : p.Legal) (line : BitVec 4) (col : Byte) :
    badPosition p line col = true ↔ 4 ≤ line.toNat ∨ 20 ≤ col.toNat := by
  obtain ⟨-, lines, -, cols, -⟩ := legal
  simp [badPosition, lines, cols]

/-! The command bytes of the positions. -/

/-- On the lines of the display the table of R197 has an entry, so no free value is read. -/
theorem lineBase_of_legal {p : Config.Params} (legal : p.Legal) {line : BitVec 4} (line_ok : line.toNat < 4) :
    lineBase p line = ([0x80, 0xC0, 0x94, 0xD4] : List Byte).getD line.toNat 0 := by
  obtain ⟨-, -, table, -⟩ := legal
  rw [lineBase, table, List.getD_eq_getElem _ _ line_ok, List.getD_eq_getElem _ _ line_ok]

theorem lineBase_toNat_of_legal {p : Config.Params} (legal : p.Legal) {line : BitVec 4} (line_ok : line.toNat < 4) :
    (lineBase p line).toNat = ([0x80, 0xC0, 0x94, 0xD4] : List Nat).getD line.toNat 0 := by
  rw [lineBase_of_legal legal line_ok]
  revert line; decide

/-- The highest base of R197's table is that of line 3. -/
theorem lineBase_le_of_legal {p : Config.Params} (legal : p.Legal) {line : BitVec 4} (line_ok : line.toNat < 4) :
    (lineBase p line).toNat ≤ 0xD4 := by
  rw [lineBase_of_legal legal line_ok]
  revert line; decide

/-- Settles O18: the highest base and the last column sum to 0xE7, which a byte holds. -/
theorem positionCommandsNeverWrap : Obligations.PositionCommandsNeverWrap := by
  intro p line col legal line_ok col_ok
  have highest := lineBase_le_of_legal legal line_ok
  have exact_sum : (lineBase p line + col).toNat = (lineBase p line).toNat + col.toNat :=
    BitVec.toNat_add_of_lt (by omega)
  exact ⟨by rw [exact_sum, lineBase_toNat_of_legal legal line_ok], by omega⟩

/-! The accepting edge of GOTO. -/

theorem exec_goto_of_bad_position {s : State} {line : BitVec 4} {col : Byte} (legal : s.cfg.Legal)
    (bad : 4 ≤ line.toNat ∨ 20 ≤ col.toNat) : exec (.goto line col) s = .next (s.completed 2) :=
  if_pos ((badPosition_iff_of_legal legal line col).mpr bad)

theorem exec_goto_of_position {s : State} {line : BitVec 4} {col : Byte} (legal : s.cfg.Legal) (line_ok : line.toNat < 4)
    (col_ok : col.toNat < 20) :
    exec (.goto line col) s = .next (s.sending (encodeByte s.bl 0 (lineBase s.cfg line + col) 0) .user) := by
  have accepted : ¬ badPosition s.cfg line col = true := by
    rw [badPosition_iff_of_legal legal]
    omega
  rw [exec, execGoto, if_neg accepted, sendCommand_eq_sending .user (encodeByte_fits legal ..), List.flatten_singleton]

/-- Settles O17: the range check separates the two outcomes, and on a legal position the base is the table's. -/
theorem gotoRequestsThePositionOrRefusesIt : Obligations.GotoRequestsThePositionOrRefusesIt := by
  refine fun line col => ⟨decode_goto line col, fun s legal => ⟨fun line_ok col_ok => ?_, exec_goto_of_bad_position legal⟩⟩
  rw [exec_goto_of_position legal line_ok col_ok, lineBase_of_legal legal line_ok]

end Sys2Proof.Machine

/-! Status codes, completions and edges at which nothing happens (60_exceptions.md R210 to R212, R222, R227). -/

namespace Sys2Proof.Machine

open Sys2Proof

/-- Settles O55: the table by evaluation; a code of at most 5 is neither 6 nor 7. -/
theorem statusCodesAreTheTable : Obligations.StatusCodesAreTheTable := by
  refine ⟨rfl, rfl, rfl, rfl, rfl, rfl, fun st => ?_⟩
  have le := st.code_le
  constructor
  all_goals
    intro unassigned
    rw [unassigned] at le
    exact absurd le (by decide)

/-- Settles O25: the equation of an edge in IDLE. -/
theorem idleEdgeKeepsTheState : Obligations.IdleEdgeKeepsTheState := fun s r f quiet => by
  rw [step_of_idle r f, quiet]
  rfl

/-- Settles O26: `run_unanswered`. -/
theorem unansweredTransactionStays : Obligations.UnansweredTransactionStays := run_unanswered

/-! No edge stops. -/

theorem sameButHidden_refl (s : State) : SameButHidden s s := ⟨rfl, fun _ => rfl, fun _ _ => rfl, fun _ => rfl⟩

/-- `step_alike` answers next states on both sides, so in particular for a state beside itself. -/
theorem step_eq_next (s : State) : ∃ t, step s = .next t := by
  obtain ⟨t, -, next, -⟩ := step_alike (sameButHidden_refl s)
  exact ⟨t, next⟩

/-- Settles O39: `step_eq_next` for an edge, the shapes of `Effect` for a command. -/
theorem nothingStopsTheMachine : Obligations.NothingStopsTheMachine := by
  refine ⟨step_eq_next, fun i s => ?_⟩
  obtain ⟨t, next, -⟩ := exec_effect i s
  exact ⟨t, next⟩

/-! The codes of each command. -/

/-- The outcome is a next state which requests a transaction and answers nothing, or is in IDLE with a response that is one of the codes
and its STATUS (R210, R212). -/
def AnswersOneOf (codes : List (BitVec 3)) (s : State) (o : Outcome) : Prop :=
  ∃ t, o = .next t ∧ ((t.fsm = .xfer ∧ t.responses = s.responses) ∨
    (t.fsm = .idle ∧ ∃ c ∈ codes, t.responses = s.responses ++ [c] ∧ t.status = c))

section
variable {codes : List (BitVec 3)} {s s' : State} (kept : s'.responses = s.responses)
include kept

theorem answersOneOf_completed {c : BitVec 3} (mem : c ∈ codes) : AnswersOneOf codes s (.next (s'.completed c)) :=
  ⟨_, rfl, .inr ⟨rfl, c, mem, congrArg (· ++ [c]) kept, rfl⟩⟩

theorem answersOneOf_sending (q : List Byte) (c : Ctx) : AnswersOneOf codes s (.next (s'.sending q c)) := ⟨_, rfl, .inl ⟨rfl, kept⟩⟩

end

theorem appendCommand_answers (q : List Byte) (s : State) : AnswersOneOf [0, 4] s (appendCommand q s) := by
  rcases Nat.lt_or_ge s.cfg.bufDepth (s.buf.length + q.length) with full | fits
  · rw [appendCommand_of_overflow full]
    exact answersOneOf_completed rfl (by simp)
  · rw [appendCommand_of_fits fits]
    exact answersOneOf_completed rfl (by simp)

theorem write_answers {s : State} (legal : s.cfg.Legal) (rs h : Bit) (v : Byte) : AnswersOneOf [] s (write rs h v s) := by
  rw [write_eq_sending legal]
  exact answersOneOf_sending rfl ..

/-- Where the bytes of a command that sends fit, as in a legal configuration, the only codes at its edge are those of its refusals. -/
theorem exec_answers (i : Instr) {s : State} (legal : s.cfg.Legal) : AnswersOneOf (immediateCodes s.cfg i) s (exec i s) := by
  cases i with
  | nop | clrbuf | ldrow => exact answersOneOf_completed rfl (List.mem_singleton_self 0)
  | nibC | nibD | putC | putD | putCH => exact appendCommand_answers _ s
  | flush =>
    by_cases empty : s.buf = []
    · rw [exec_flush_of_empty empty]
      exact answersOneOf_completed rfl (List.mem_singleton_self 0)
    · rw [exec_flush_of_some empty]
      exact answersOneOf_sending rfl ..
  | writeC | writeD | writeCH => exact write_answers legal ..
  | setl on =>
    cases emits : s.cfg.setlightEmits with
    | true =>
      rw [exec_setl_of_emits on legal emits]
      exact answersOneOf_sending rfl ..
    | false =>
      rw [exec_setl_of_silent on emits]
      exact answersOneOf_completed rfl (by simp [immediateCodes, emits, Status.code])
  | goto line col =>
    by_cases bad : 4 ≤ line.toNat ∨ 20 ≤ col.toNat
    · rw [exec_goto_of_bad_position legal bad]
      exact answersOneOf_completed rfl (List.mem_singleton_self 2)
    · rw [not_or, not_le, not_le] at bad
      obtain ⟨line_ok, col_ok⟩ := bad
      rw [exec_goto_of_position legal line_ok col_ok]
      exact answersOneOf_sending rfl ..
  | defchar slot =>
    rcases Nat.lt_or_ge slot.toNat 8 with good | bad
    · rw [exec_defchar_of_slot legal good]
      exact answersOneOf_sending rfl ..
    · rw [exec_defchar_of_bad_slot legal bad]
      exact answersOneOf_completed rfl (List.mem_singleton_self 3)
  | init =>
    rw [exec_init legal]
    exact answersOneOf_sending rfl ..

/-- Settles O57: `exec_answers`, for the next state given. -/
theorem commandsAnswerOnlyTheirCodes : Obligations.CommandsAnswerOnlyTheirCodes := fun i s t legal next => by
  obtain ⟨t', next', answers⟩ := exec_answers i legal
  obtain rfl : t = t' := Host.Outcome.next.inj (next.symm.trans next')
  exact answers

end Sys2Proof.Machine

/-! The reset edge, and the first one after any power-up (70_reset_and_hazards.md R240, R243). A run of any length answers a next state,
whose coming pins are the script's and whose parameters are the old ones, and a reset edge takes any state to the reset values. Last the
wait with CTX = USER, which only a power-up state can be in (log 12). -/

namespace Sys2Proof.Machine

open Sys2Proof

/-- The reset action clears every row register (R240). -/
theorem State.resetAction_row_eq_zero (s : State) (k : Fin 8) : s.resetAction.row[k] = 0 := by
  fin_cases k <;> rfl

/-- Settles O2: each clause is a field of the reset action on the state the edge begins with. -/
theorem resetEdgeForcesResetValues : Obligations.ResetEdgeForcesResetValues := fun s r =>
  ⟨_, step_of_rst r, rfl, rfl, rfl, s.beginEdge.resetAction_row_eq_zero, rfl, rfl, rfl, rfl, rfl, rfl, rfl⟩

theorem Effect.inputs_eq {s t : State} (h : Effect s t) : t.inputs = s.inputs := by
  cases h with
  | send s' before | part s' before => rcases before with rfl | ⟨_, rfl⟩ | ⟨_, rfl⟩ <;> rfl
  | _ => rfl

/-- An edge uses up its own pins and leaves the others. -/
theorem EdgeShape.inputs_eq {s t : State} (h : EdgeShape s t) : t.inputs = s.inputs.tail := by
  cases h with
  | command i t r f v d e => exact (effect_of_exec e).inputs_eq
  | waitedInit t r f w c k e => exact (effect_of_initStep e).inputs_eq
  | waitedOpenInit k t r f w c e => exact (effect_of_initStep e).inputs_eq
  | _ => rfl

/-- No run stops; it keeps the parameters (R9) and uses up one entry of the script an edge. -/
theorem run_eq_next (n : Nat) (s : State) : ∃ t, run n s = .next t ∧ t.cfg = s.cfg ∧ t.inputs = s.inputs.drop n := by
  induction n generalizing s with
  | zero => exact ⟨s, rfl, rfl, rfl⟩
  | succ n ih =>
    obtain ⟨u, first⟩ := step_eq_next s
    obtain ⟨t, rest, cfg, inputs⟩ := ih u
    have shape := step_shape first
    exact ⟨t, (run_succ_next first).trans rest, cfg.trans shape.cfg_eq, by rw [inputs, shape.inputs_eq, List.drop_tail]⟩

theorem State.pins_of_inputs_drop {s t : State} {n : Nat} (h : t.inputs = s.inputs.drop n) : t.pins = s.pinsAt n := by
  rw [← State.pins_edges, State.pins, State.pins, h]
  rfl

/-- Settles O41: the run up to the reset edge answers a next state (`run_eq_next`), whatever it is, and O2 says what that edge makes
of it. -/
theorem resetIsReachedFromAnyPowerUpState : Obligations.ResetIsReachedFromAnyPowerUpState := fun n s r => by
  obtain ⟨u, before, cfg, inputs⟩ := run_eq_next n s
  rw [← State.pins_of_inputs_drop inputs] at r
  obtain ⟨t, edge, bl, buf, len, row, status, fsm, rspValid, kept, -⟩ := resetEdgeForcesResetValues u r
  refine ⟨t, ?_, cfg ▸ bl, buf, len, row, status, fsm, rspValid, kept.trans cfg⟩
  rw [run_add_next before, run_one, edge]

/-- Settles O40: the three free ends of a wait with CTX = USER (log 12), the last by the equation of an INIT step. -/
theorem waitWithoutContinuationGoesOn : Obligations.WaitWithoutContinuationGoesOn := fun s legal r f w c => by
  have freeEnd : step s = openWaitEnd s.beginEdge := by
    rw [step_of_wait_end r f w, waitContinuation, State.beginEdge_ctx, c]
  rw [freeEnd, openWaitEnd]
  cases ctxOfDraw (Config.freeWaitEnd s.beginEdge.draws) with
  | user => exact .inl ⟨_, rfl⟩
  | slow => exact .inr (.inl rfl)
  | init => exact .inr (.inr ⟨_, initStep_setStep (s := s.beginEdge) legal _⟩)

end Sys2Proof.Machine
